-- ==== Sys2Proof/Word.lean ====
section
/-! DEFINITION. The 32-bit word of the block, the 624-word vector, and the byte of the host-side adapters. -/

namespace Sys2Proof

/-- A word: 32 bits, unsigned, bit 0 least significant (R7). Its `+`, `-`, `*` wrap modulo 2^32 (R9);
its `>>>` is logical and its `<<<` drops the bits shifted past bit 31 (R10). -/
abbrev Word := BitVec 32

/-- A byte: seen only by the host-side adapters (R43, R73), never by the block. -/
abbrev Byte := BitVec 8

/-- A sequence of exactly 624 words: the shape of the state vector `W` (R21, "never resized") and of the
operand of SETST (R62, format V). -/
abbrev Words := Vector Word 624

end Sys2Proof
end

