-- ==== Sys2Proof/Config.lean ====
section
/-! DEFINITION. The sizes the spec fixes for this block (R5, R6). Nothing here is free: the spec leaves no
run-time choice (R12). The open parameters `PORT_BASE`, `N_INSTANCES` and `CYCLES` of `92_eei_decisions.md`
are read by no rule and have no place in a model of one block (log entry 8). -/

namespace Sys2Proof.Config

/-- `N`: the number of words in the state vector (R5). -/
def numWords : Nat := 624

/-- `IDX_PENDING`: the value of `IDX` that means "twist before the next extraction" (R5, R24). -/
def idxPending : Nat := 624

/-- `IDX_UNSEEDED`: the value of `IDX` that means "never seeded" (R5, R24). -/
def idxUnseeded : Nat := 625

/-- The largest key length the one length operand word can carry (R62, decision D8). -/
def maxKeyLength : Nat := 4294967295

end Sys2Proof.Config
end

