-- ==== Sys2Proof/Syntax.lean ====
section
/-! DEFINITION. The eight commands of `MT19937-CMD 1.0` (R67), each as a complete value: the operation and all
its operands (R70). -/

namespace Sys2Proof

/-- One command, one constructor per row of `opcode_table.json` (R67). The micro-operations AUTOSEED, TWIST,
EXTRACT, TEMPER and F64CONV have no encoding and are no constructors: they are parts of `next32` and
`nextf64`. -/
inductive Instr
  /-- SEEDS `s`: scalar seeding (R91). -/
  | seeds (s : Word)
  /-- SEEDA `[k0, ..., k(L-1)]`: array seeding from a key of any length (R93). -/
  | seeda (key : List Word)
  /-- NEXT32: the next 32-bit word (R110). -/
  | next32
  /-- NEXTF64: the next 53-bit double (R140). -/
  | nextf64
  /-- GETST: read the whole state vector (R150). -/
  | getst
  /-- SETST `[w0, ..., w623]`: replace the whole state vector (R151). The format fixes the count of 624. -/
  | setst (v : Words)
  /-- GETIDX: read the index register (R152). -/
  | getidx
  /-- SETIDX `idx`: write the index register after checking the operand (R153). -/
  | setidx (idx : Word)
  deriving DecidableEq, Repr

end Sys2Proof
end

