-- ==== Sys2Proof/Machine/State.lean ====
section
/-! DEFINITION. The state of the machine: the block's architectural pair (`W`, `IDX`) and the two streams that
connect it to its host. -/

namespace Sys2Proof.Machine

/-- The architectural state of one block: exactly the pair (`W`, `IDX`) (R20). The type of `idx` has exactly the
626 legal values 0 to 625 (R24, decision D5), and every content of `words` is legal (R21). -/
structure Gen where
  /-- `W`: the 624 raw words (R21, R117). -/
  words : Words
  /-- `IDX`: 0 to 623 has pending words, 624 twist pending, 625 never seeded (R24). -/
  idx : Fin 626
  deriving DecidableEq, Repr

/-- One thing the host does to the block, in the order it does it. -/
inductive HostInput
  /-- The host presents the next 32-bit word of the command stream (R32 (c), R60). -/
  | word (w : Word)
  /-- The host applies reset, an event from outside the command set (R191). -/
  | reset
  deriving DecidableEq, Repr

/-- The machine: the block and its two streams (R32 (c)). The block reads `input` one packet at a time and never
reads `output`. -/
structure State where
  /-- The block's own state. -/
  gen : Gen
  /-- What the host presents and the block has not yet taken, first thing first (R49, log entry 1). -/
  input : List HostInput
  /-- The response packets given so far, oldest first, each a list of words with its status word first
  (R63, R205, log entry 2). -/
  output : List (List Word)
  deriving DecidableEq, Repr

/-- Reasons the machine stops with a fault: there are none. A rejected command is answered with a status word and
the block takes the next command (R176, R178), and no other command can fail (R170). No constructor: nobody
raises one. -/
inductive Fault
  deriving DecidableEq, Repr

/-- Reasons the model gives a step no meaning. -/
inductive Refusal
  /-- An instruction without a meaning in this model. Raised by no arm: every row of the opcode table has its
  meaning. Safe. -/
  | notModelled (mnemonic : String)
  /-- The host applies reset after some but not all words of a packet. Raised by `step` alone, for no command:
  reset "can be applied between commands only" (R191), and what the state is then "is not defined by this spec"
  (`93_implementation_defined.md` U8, treatment `refuse`). Safe. -/
  | resetInsidePacket
  deriving DecidableEq, Repr

/-- The reset values of the architectural state: every word of `W` is 0 (R23) and `IDX` is 625 (R26). -/
def Gen.reset : Gen := { words := Vector.replicate 624 0#32, idx := 625 }

/-- The machine right after reset: the block in its reset state (R190), waiting for its first command, with
nothing presented and nothing answered. -/
def State.reset : State := { gen := Gen.reset, input := [], output := [] }

end Sys2Proof.Machine
end

