-- ==== Sys2Proof/Machine/Flags.lean ====
section
/-! DEFINITION. The block has no flags (R29). The outcome of a command is the status word of its response (R64),
which is kept nowhere in the block; this file holds the status words and the response packets (R63). -/

namespace Sys2Proof.Machine

/-- The three outcomes of a command (R64). -/
inductive Status
  /-- The command was executed as its rule says. -/
  | ok
  /-- SETIDX with `idx > 624` (R171). -/
  | invalidArgument
  /-- The command word is none of the eight of R67 (R172). -/
  | illegalCommand
  deriving DecidableEq, Repr

/-- The status word (R64). -/
def statusWord : Status → Word
  | .ok => 0x00000000#32
  | .invalidArgument => 0x00000001#32
  | .illegalCommand => 0x00000002#32

/-- The response to an executed command: the status word OK and then the result words (R63). -/
def okPacket (results : List Word) : List Word := statusWord .ok :: results

/-- The response to a rejected command: the status word and nothing after it (R63, R176). -/
def errorPacket (st : Status) : List Word := [statusWord st]

end Sys2Proof.Machine
end

