-- ==== Sys2Proof/Machine/Operands.lean ====
section
/-! DEFINITION. How a command reads its operands (R42, R65, R97, R153). The operand words themselves are
assembled by the decoder. -/

namespace Sys2Proof.Machine

/-- `EMPTY_KEY_WORD`: what a read of `KEY[0]` gives when the key is empty (R42, decision D7). -/
def EMPTY_KEY_WORD : Word := 0x00000000#32

/-- The word `kw` that one iteration of the first mixing pass adds: `KEY[j]` of a key that has words, and
0x00000000 of the empty key (R42, R93, R97). For a non-empty key the cursor `j` is less than its length
(`mix1_cursors_bounded`), so the default of `getD` is reached by the empty key alone. -/
def keyWord (key : List Word) (j : Nat) : Word := key.getD j EMPTY_KEY_WORD

/-- An index, cursor or counter taken as a 32-bit unsigned word (R11). -/
def toWord (n : Nat) : Word := BitVec.ofNat 32 n

/-- SETIDX's operand read as an unsigned integer and checked against 624: the value for `IDX`, or none where the
command is rejected (R65, R153). Nothing is clamped, reduced or truncated. -/
def idxOperand (idx : Word) : Option (Fin 626) :=
  if h : idx.toNat ≤ 624 then some ⟨idx.toNat, by omega⟩ else none

end Sys2Proof.Machine
end

