-- ==== Sys2Proof/Machine/Ops.lean ====
section
/-! DEFINITION. The named operations over the block's two stores, the counted loop of the pseudocode, and the two
ways a command ends: with its results, or rejected. -/

namespace Sys2Proof.Machine

/-- The index expression `n mod 624` (R41). For `n` from 0 to 623 it is `n` itself; the reduction shows only in
`(k+1) mod 624` and `(k+397) mod 624` (R11). -/
def wIndex (n : Nat) : Fin 624 := ⟨n % 624, Nat.mod_lt _ (by decide)⟩

/-- `W[i]` read: one whole word at one index (R40). -/
def readW (w : Words) (i : Fin 624) : Word := w[i.val]

/-- `W[i] <- v`: one whole word at one index (R40). -/
def writeW (w : Words) (i : Fin 624) (v : Word) : Words := w.set i.val v

/-- A value for `IDX` (R24). Applied to 0 to 625 only, where it is the value itself. -/
def idxOf (n : Nat) : Fin 626 := ⟨n % 626, Nat.mod_lt _ (by decide)⟩

/-- `for k from 0 to n-1: a <- f k a` (R8, R50): the steps in ascending order, each on what the one before
left. Marked irreducible so that no proof unrolls 624 steps by accident: `loop_zero` and `loop_succ` unfold it. -/
@[irreducible] def loop {α : Type} (f : Nat → α → α) : Nat → α → α
  | 0, a => a
  | n + 1, a => f n (loop f n a)

/-- `W <- w`, all 624 words. -/
def Gen.setWords (g : Gen) (w : Words) : Gen := { g with words := w }

/-- `IDX <- n`. -/
def Gen.setIdx (g : Gen) (n : Fin 626) : Gen := { g with idx := n }

/-- The block's state replaced; the streams are kept. -/
def State.setGen (s : State) (g : Gen) : State := { s with gen := g }

/-- The words of a packet taken from the command stream: `rest` is what is left of it. -/
def State.setInput (s : State) (rest : List HostInput) : State := { s with input := rest }

/-- One response packet given (R60, R63). -/
def State.respond (s : State) (packet : List Word) : State := { s with output := s.output ++ [packet] }

/-- A command ends with its new state and its result words: the response is status OK and the results (R63). -/
def complete (g : Gen) (results : List Word) (s : State) : Host.Outcome State Fault Refusal :=
  .next ((s.setGen g).respond (okPacket results))

/-- A command is rejected (`raise` of R8): no state is written, and the response is the status word alone (R176,
R177). Nothing is saved and no control is transferred. There is no return from it: the block takes the next
command as after an OK response (R178). -/
def reject (st : Status) (s : State) : Host.Outcome State Fault Refusal :=
  .next (s.respond (errorPacket st))

end Sys2Proof.Machine
end

