-- ==== Sys2Proof/Machine/Access.lean ====
section
/-! DEFINITION. State access: GETST (R150), SETST (R151), GETIDX (R152), SETIDX (R153). -/

namespace Sys2Proof.Machine

/-- GETST (R150): the 624 raw words in ascending index order; nothing is written. -/
def execGetst (s : State) : Host.Outcome State Fault Refusal :=
  complete s.gen s.gen.words.toList s

/-- SETST (R151): `W[n] <- v[n]` for all `n`; no content is checked, and `IDX` is not read and not written. -/
def execSetst (v : Words) (s : State) : Host.Outcome State Fault Refusal :=
  complete (s.gen.setWords v) [] s

/-- GETIDX (R152): `zext_32(IDX)`, 625 included; nothing is written. -/
def execGetidx (s : State) : Host.Outcome State Fault Refusal :=
  complete s.gen [toWord s.gen.idx.val] s

/-- SETIDX (R153): `IDX <- idx` where `idx <= 624`; every other operand, 625 included, raises InvalidArgument
before anything is written (R171). -/
def execSetidx (idx : Word) (s : State) : Host.Outcome State Fault Refusal :=
  match idxOperand idx with
  | some n => complete (s.gen.setIdx n) [] s
  | none => reject .invalidArgument s

end Sys2Proof.Machine
end

