-- ==== Sys2Proof/Machine/Constants.lean ====
section
/-! DEFINITION. The algorithm's constants, under the names and with the values of R5. -/

namespace Sys2Proof.Machine

/-- `UPPER_MASK` (R5): the most significant bit of a word. -/
def UPPER_MASK : Word := 0x80000000#32
/-- `LOWER_MASK` (R5): the 31 least significant bits of a word. -/
def LOWER_MASK : Word := 0x7FFFFFFF#32
/-- `MATRIX_A` (R5): the twist's conditional XOR constant. -/
def MATRIX_A : Word := 0x9908B0DF#32
/-- `M_OFF` (R5): the index offset of the third twist operand. -/
def M_OFF : Nat := 397
/-- `SEED_MULT` (R5): the multiplier of scalar seeding. -/
def SEED_MULT : Word := 1812433253#32
/-- `DEFAULT_SEED` (R5): the seed of the auto-seed. -/
def DEFAULT_SEED : Word := 5489#32
/-- `ARRAY_BASE_SEED` (R5): the scalar seed that array seeding starts from. -/
def ARRAY_BASE_SEED : Word := 19650218#32
/-- `MIX1_MULT` (R5): the multiplier of the first array-seeding pass. -/
def MIX1_MULT : Word := 1664525#32
/-- `MIX2_MULT` (R5): the multiplier of the second array-seeding pass. -/
def MIX2_MULT : Word := 1566083941#32
/-- `MIX2_ITER` (R5): the iterations of the second array-seeding pass. -/
def MIX2_ITER : Nat := 623
/-- `ARRAY_W0` (R5): the value forced into `W[0]` at the end of array seeding. -/
def ARRAY_W0 : Word := 0x80000000#32
/-- `TEMPER_B` (R5): the mask of the second tempering step. -/
def TEMPER_B : Word := 0x9D2C5680#32
/-- `TEMPER_C` (R5): the mask of the third tempering step. -/
def TEMPER_C : Word := 0xEFC60000#32
/-- `F64_SCALE_A` (R5): 2^26, the weight of the first word's 27 bits. -/
def F64_SCALE_A : Nat := 67108864

end Sys2Proof.Machine
end

