-- ==== Sys2Proof/Machine/Seeding.lean ====
section
/-! DEFINITION. The seed loaders: SEEDS (R91) and SEEDA (R93 to R97). -/

namespace Sys2Proof.Machine

/-- The scramble of the seed loaders, `scr(p) = p ^ (p >> 30)` (R90). -/
def scr (p : Word) : Word := p ^^^ (p >>> 30)

/-- Step `i = n + 1` of scalar seeding: `W[i] <- (SEED_MULT *32 scr(W[i-1])) +32 i` (R91). -/
def seedStep (n : Nat) (w : Words) : Words :=
  writeW w (wIndex (n + 1)) (SEED_MULT * scr (readW w (wIndex n)) + toWord (n + 1))

/-- Scalar seeding of the vector: `W[0] <- s`, then the 623 steps `i = 1, ..., 623` (R91). -/
def seedWords (s : Word) (w : Words) : Words := loop seedStep 623 (writeW w 0 s)

/-- The body of SEEDS (R91, R92): the vector seeded from `s` and `IDX <- 624`. -/
def seedGen (s : Word) (g : Gen) : Gen := { words := seedWords s g.words, idx := 624 }

/-- What the mixing passes of SEEDA work on: the vector, the state cursor `i` and the key cursor `j` (R94). It
exists inside one command only (R31). -/
structure Mix where
  words : Words
  i : Nat
  j : Nat
  deriving DecidableEq, Repr

/-- The state cursor's advance: `i = i + 1`; `if i >= 624: W[0] <- W[623]; i = 1` (R94, R95). -/
def advanceI (m : Mix) : Mix :=
  if m.i + 1 ≥ 624 then { m with words := writeW m.words 0 (readW m.words 623), i := 1 }
  else { m with i := m.i + 1 }

/-- The key cursor's advance: `j = j + 1`; `if j >= L: j = 0` (R94). With `L = 0` it stays at 0 (R97). -/
def advanceJ (len : Nat) (m : Mix) : Mix :=
  if m.j + 1 ≥ len then { m with j := 0 } else { m with j := m.j + 1 }

/-- One iteration of the first mixing pass (R94). -/
def mix1Step (key : List Word) (m : Mix) : Mix :=
  let v := (readW m.words (wIndex m.i) ^^^ (scr (readW m.words (wIndex (m.i - 1))) * MIX1_MULT))
    + keyWord key m.j + toWord m.j
  advanceJ key.length (advanceI { m with words := writeW m.words (wIndex m.i) v })

/-- One iteration of the second mixing pass (R95). -/
def mix2Step (m : Mix) : Mix :=
  let v := (readW m.words (wIndex m.i) ^^^ (scr (readW m.words (wIndex (m.i - 1))) * MIX2_MULT)) - toWord m.i
  advanceI { m with words := writeW m.words (wIndex m.i) v }

/-- The first mixing pass after `n` iterations, from the vector `w` with `i = 1` and `j = 0` (R93 stage 2). -/
def mix1 (key : List Word) (w : Words) (n : Nat) : Mix :=
  loop (fun _ => mix1Step key) n { words := w, i := 1, j := 0 }

/-- The second mixing pass after `n` iterations; `i` continues from the first pass (R93 stage 3, R95). -/
def mix2 (m : Mix) (n : Nat) : Mix := loop (fun _ => mix2Step) n m

/-- Array seeding of the vector, stages 1 to 4 of R93: scalar seeding with `ARRAY_BASE_SEED`, `max(624, L)`
iterations of the first pass, 623 of the second, and `W[0] <- 0x80000000` (R96). -/
def seedaWords (key : List Word) (w : Words) : Words :=
  let first := mix1 key (seedWords ARRAY_BASE_SEED w) (max 624 key.length)
  writeW (mix2 first MIX2_ITER).words 0 ARRAY_W0

/-- The body of SEEDA (R93), stage 5 being `IDX <- 624`. -/
def seedaGen (key : List Word) (g : Gen) : Gen := { words := seedaWords key g.words, idx := 624 }

/-- SEEDS `s` (R91): never fails, no result words. -/
def execSeeds (seed : Word) (s : State) : Host.Outcome State Fault Refusal :=
  complete (seedGen seed s.gen) [] s

/-- SEEDA `key` (R93): never fails for any key, the empty one included, no result words. -/
def execSeeda (key : List Word) (s : State) : Host.Outcome State Fault Refusal :=
  complete (seedaGen key s.gen) [] s

end Sys2Proof.Machine
end

