-- ==== Sys2Proof/Machine/Generation.lean ====
section
/-! DEFINITION. The word generator: AUTOSEED (R111), TWIST (R112, R113), EXTRACT (R115), TEMPER (R116) and the
command NEXT32 (R110). -/

namespace Sys2Proof.Machine

/-- AUTOSEED: the body of SEEDS with the seed 5489 (R111). -/
def autoseed (g : Gen) : Gen := seedGen DEFAULT_SEED g

/-- The word `y` of one twist step: bit 31 of `a` above the 31 low bits of `b` (R112). -/
def twistY (a b : Word) : Word := (a &&& UPPER_MASK) ||| (b &&& LOWER_MASK)

/-- The term `(y >> 1) ^ mag` of one twist step, `mag` chosen by `y`'s low bit (R112). -/
def twistTerm (a b : Word) : Word :=
  (twistY a b >>> 1) ^^^ (if (twistY a b).getLsbD 0 then MATRIX_A else 0x00000000#32)

/-- Step `k` of the twist, on the one buffer as the earlier steps left it (R112, R113). -/
def twistStep (k : Nat) (w : Words) : Words :=
  writeW w (wIndex k)
    (readW w (wIndex (k + M_OFF)) ^^^ twistTerm (readW w (wIndex k)) (readW w (wIndex (k + 1))))

/-- The 624 steps of the twist, `k` ascending from 0 to 623, in place (R112, R113). -/
def twistWords (w : Words) : Words := loop twistStep 624 w

/-- TWIST: all 624 words regenerated and `IDX <- 0` (R112). -/
def twist (g : Gen) : Gen := { words := twistWords g.words, idx := 0 }

/-- What NEXT32 does before it extracts: nothing when `IDX < 624`; otherwise the auto-seed if `IDX = 625`, and
then the twist (R110). -/
def prepare (g : Gen) : Gen :=
  if g.idx.val ≥ Config.idxPending then
    twist (if g.idx.val = Config.idxUnseeded then autoseed g else g)
  else g

/-- EXTRACT: the raw word `W[IDX]`, and `IDX <- IDX + 1` (R115). Performed only after `prepare`, where `IDX` is
from 0 to 623 (`prepare_idx_lt`). -/
def extract (g : Gen) : Word × Gen :=
  (readW g.words (wIndex g.idx.val), g.setIdx (idxOf (g.idx.val + 1)))

/-- TEMPER: the four sequential steps of R116. -/
def temper (y0 : Word) : Word :=
  let y1 := y0 ^^^ (y0 >>> 11)
  let y2 := y1 ^^^ ((y1 <<< 7) &&& TEMPER_B)
  let y3 := y2 ^^^ ((y2 <<< 15) &&& TEMPER_C)
  y3 ^^^ (y3 >>> 18)

/-- NEXT32-body (R110, R140): the generated word and the new state. -/
def nextWord (g : Gen) : Word × Gen :=
  (temper (extract (prepare g)).1, (extract (prepare g)).2)

/-- NEXT32 (R110): never fails, one result word. -/
def execNext32 (s : State) : Host.Outcome State Fault Refusal :=
  complete (nextWord s.gen).2 [(nextWord s.gen).1] s

end Sys2Proof.Machine
end

