-- ==== Sys2Proof/Machine/Double.lean ====
section
/-! DEFINITION. The double generator: F64CONV (R141, R142) and the command NEXTF64 (R140). -/

namespace Sys2Proof.Machine

/-- The 53-bit integer `m = a * 2^26 + b`, `a` the 27 high bits of the first word and `b` the 26 high bits of the
second (R141). The order of the words is fixed (R144). -/
def f64Mantissa (word1 word2 : Word) : Nat :=
  (word1 >>> 5).toNat * F64_SCALE_A + (word2 >>> 6).toNat

/-- The binary64 pattern of `m / 2^53` for `m < 2^53` (R142): +0.0 for 0, else sign 0, biased exponent `970 + p`
and the bits of `m` below its highest set bit `p`, left-aligned in 52 bits. -/
def binary64 (m : Nat) : BitVec 64 :=
  if m = 0 then 0x0000000000000000#64
  else
    let p := Nat.log2 m
    0#1 ++ BitVec.ofNat 11 (970 + p) ++ BitVec.ofNat 52 (m <<< (52 - p))

/-- F64CONV (R141, R142). No step rounds, and no exception is raised (R143). -/
def f64conv (word1 word2 : Word) : BitVec 64 := binary64 (f64Mantissa word1 word2)

/-- `d[31:0]` (R66). -/
def lowWord (d : BitVec 64) : Word := d.extractLsb' 0 32

/-- `d[63:32]` (R66). -/
def highWord (d : BitVec 64) : Word := d.extractLsb' 32 32

/-- The body of NEXTF64: two NEXT32 bodies, one after the other, and the pattern of the pair (R140). -/
def nextDouble (g : Gen) : BitVec 64 × Gen :=
  (f64conv (nextWord g).1 (nextWord (nextWord g).2).1, (nextWord (nextWord g).2).2)

/-- NEXTF64 (R140): never fails, two result words, the less significant first (R66). -/
def execNextf64 (s : State) : Host.Outcome State Fault Refusal :=
  complete (nextDouble s.gen).2 [lowWord (nextDouble s.gen).1, highWord (nextDouble s.gen).1] s

end Sys2Proof.Machine
end

