-- ==== Sys2Proof/Machine/Dispatch.lean ====
section
/-! DEFINITION. Which meaning each command has: one arm per row of the opcode map (R67). -/

namespace Sys2Proof.Machine

/-- The effect of one command on a state from whose stream its packet has been taken. -/
def exec (i : Instr) (s : State) : Host.Outcome State Fault Refusal :=
  match i with
  | .seeds seed => Sys2Proof.Machine.execSeeds seed s
  | .seeda key => Sys2Proof.Machine.execSeeda key s
  | .next32 => Sys2Proof.Machine.execNext32 s
  | .nextf64 => Sys2Proof.Machine.execNextf64 s
  | .getst => Sys2Proof.Machine.execGetst s
  | .setst v => Sys2Proof.Machine.execSetst v s
  | .getidx => Sys2Proof.Machine.execGetidx s
  | .setidx idx => Sys2Proof.Machine.execSetidx idx s

end Sys2Proof.Machine
end

