-- ==== Sys2Proof/WellFormed.lean ====
section
/-! DEFINITION. Which commands can be written as a packet. -/

namespace Sys2Proof

/-- A command that has a packet. The one check: a key's length fits the length operand word of format K
(R62, "0 to 4294967295"). Every other operand has its width or its count in its type (R65). -/
def Instr.wf : Instr → Bool
  | .seeds _ => true
  | .seeda key => decide (key.length ≤ Config.maxKeyLength)
  | .next32 => true
  | .nextf64 => true
  | .getst => true
  | .setst _ => true
  | .getidx => true
  | .setidx _ => true

end Sys2Proof
end

