-- ==== Sys2Proof/Decode.lean ====
section
/-! DEFINITION. The opcode map (R67), the decoder of command packets (R61, R62, R65, R68, R70), the encoder
(R62, R71), and the reading of one row of `opcode_table.json` as a packet. -/

namespace Sys2Proof

/-- The eight operation codes (R67). -/
inductive Opcode
  | seeds | seeda | next32 | nextf64 | getst | setst | getidx | setidx
  deriving DecidableEq, Repr

/-- The four packet formats, named by the operand words that follow the command word (R62). -/
inductive Format
  /-- No operand word. -/
  | z
  /-- One scalar operand word. -/
  | s
  /-- A length word `L` and then `L` key words. -/
  | k
  /-- 624 words. -/
  | v
  deriving DecidableEq, Repr

/-- One row of the opcode map: a command word selects the row when `(word & mask) == pat` (R67). -/
structure OpRow where
  mask : Word
  pat : Word
  op : Opcode
  format : Format
  deriving DecidableEq, Repr

/-- The opcode map (R67). The mask is all ones in every row, so the whole command word is fixed and bits 31 to 8
must be 0 (R61). -/
def opTable : List OpRow :=
  [ { mask := 0xFFFFFFFF#32, pat := 0x00000001#32, op := .seeds,   format := .s },
    { mask := 0xFFFFFFFF#32, pat := 0x00000002#32, op := .seeda,   format := .k },
    { mask := 0xFFFFFFFF#32, pat := 0x00000003#32, op := .next32,  format := .z },
    { mask := 0xFFFFFFFF#32, pat := 0x00000004#32, op := .nextf64, format := .z },
    { mask := 0xFFFFFFFF#32, pat := 0x00000005#32, op := .getst,   format := .z },
    { mask := 0xFFFFFFFF#32, pat := 0x00000006#32, op := .setst,   format := .v },
    { mask := 0xFFFFFFFF#32, pat := 0x00000007#32, op := .getidx,  format := .z },
    { mask := 0xFFFFFFFF#32, pat := 0x00000008#32, op := .setidx,  format := .s } ]

/-- The row a command word selects; none: the word is illegal (R68). Decoding a command word reads nothing but
that word (R61). -/
def decodeOp (w : Word) : Option OpRow :=
  opTable.find? (fun r => decide (w &&& r.mask = r.pat))

/-- What the words at the front of the command stream are. -/
inductive Decoded
  /-- A complete packet of a command, and the words after it. -/
  | command (i : Instr) (rest : List Word)
  /-- An illegal command word, which is a packet of length 1, and the words after it (R68). -/
  | illegal (w : Word) (rest : List Word)
  /-- No packet yet: words of the packet are still to come (R70). -/
  | incomplete
  deriving DecidableEq, Repr

/-- The operand of SETST: operand word `n + 1` is the new `W[n]` (R65). -/
def wordsOfList (ws : List Word) (h : ws.length = 624) : Words := ⟨ws.toArray, by simpa using h⟩

/-- The operand words of one command, taken from the words after its command word (R62, R65). -/
def decodeOperands (op : Opcode) (ws : List Word) : Decoded :=
  match op with
  | .seeds => match ws with
    | [] => .incomplete
    | s :: rest => .command (.seeds s) rest
  | .seeda => match ws with
    | [] => .incomplete
    | len :: rest =>
      if len.toNat ≤ rest.length then .command (.seeda (rest.take len.toNat)) (rest.drop len.toNat)
      else .incomplete
  | .next32 => .command .next32 ws
  | .nextf64 => .command .nextf64 ws
  | .getst => .command .getst ws
  | .setst =>
    if h : 624 ≤ ws.length then
      .command (.setst (wordsOfList (ws.take 624) (by simp [h]))) (ws.drop 624)
    else .incomplete
  | .getidx => .command .getidx ws
  | .setidx => match ws with
    | [] => .incomplete
    | idx :: rest => .command (.setidx idx) rest

/-- The decoder: what the front of a word stream is. Total on every list of words; a word outside the opcode map
is rejected by name (`Decoded.illegal`, R68), and so is a packet whose words have not all arrived
(`Decoded.incomplete`, R70). -/
def decode (ws : List Word) : Decoded :=
  match ws with
  | [] => .incomplete
  | w :: rest =>
    match decodeOp w with
    | none => .illegal w rest
    | some r => decodeOperands r.op rest

/-- The packet of a command: its command word and then its operand words (R62, R71). -/
def encode : Instr → List Word
  | .seeds s => [0x00000001#32, s]
  | .seeda key => 0x00000002#32 :: BitVec.ofNat 32 key.length :: key
  | .next32 => [0x00000003#32]
  | .nextf64 => [0x00000004#32]
  | .getst => [0x00000005#32]
  | .setst v => 0x00000006#32 :: v.toList
  | .getidx => [0x00000007#32]
  | .setidx idx => [0x00000008#32, idx]

/-- The length in words of the packet whose command word is `w` and whose operand word 1, where there is one, is
`w1` (R62; an illegal word is a packet of length 1, R68). -/
def packetLength (w w1 : Word) : Nat :=
  match decodeOp w with
  | none => 1
  | some r =>
    match r.format with
    | .z => 1
    | .s => 2
    | .k => 2 + w1.toNat
    | .v => 625

/-- Word `n` of a packet written as one number: bit 0 of the number is bit 0 of word 0 and the bits of a later
word count on from it. -/
def wordOfNumber (x n : Nat) : Word := BitVec.ofNat 32 (x / 2 ^ (32 * n))

/-- The words of the packet that the number `w` of `nbits` bits begins; every bit above `nbits` is 0. Exactly the
packet's own words: no word after them. -/
def tableWords (nbits w : Nat) : List Word :=
  let x := w % 2 ^ nbits
  (List.range (packetLength (wordOfNumber x 0) (wordOfNumber x 1))).map (wordOfNumber x)

/-- The command the decoder reads from a packet given as a row of `opcode_table.json` numbers its bits. -/
def decodeTableWord (nbits w : Nat) : Option Instr :=
  match decode (tableWords nbits w) with
  | .command i _ => some i
  | .illegal _ _ => none
  | .incomplete => none

end Sys2Proof
end

