-- ==== Sys2Proof/Machine/Port.lean ====
section
/-! DEFINITION. The command port: taking the next packet from the command stream (R60 to R62, R70), the answer to
an illegal command word (R68, R172), and the reset event (R190, R191). -/

namespace Sys2Proof.Machine

/-- What the host does next, as far as it is presented. -/
inductive Fetched
  /-- Nothing is presented. -/
  | idle
  /-- The host applies reset between commands (R191). -/
  | reset (rest : List HostInput)
  /-- A complete packet of a command. -/
  | command (i : Instr) (rest : List HostInput)
  /-- An illegal command word (R68). -/
  | illegal (rest : List HostInput)
  /-- Some but not all words of a packet are presented, and nothing after them yet (R70). -/
  | waiting
  /-- Some but not all words of a packet are presented, and then a reset (`93_implementation_defined.md` U8). -/
  | cutPacket
  deriving DecidableEq, Repr

/-- The words presented before the first reset event. -/
def leadingWords : List HostInput → List Word
  | .word w :: rest => w :: leadingWords rest
  | .reset :: _ => []
  | [] => []

/-- What follows those words: nothing, or the first reset event and all after it. -/
def afterWords : List HostInput → List HostInput
  | .word _ :: rest => afterWords rest
  | .reset :: rest => .reset :: rest
  | [] => []

/-- The words of a packet as the host presents them. -/
def wordInputs (ws : List Word) : List HostInput := ws.map .word

/-- The packet of a command as the host presents it (R62). -/
def packetInputs (i : Instr) : List HostInput := wordInputs (encode i)

/-- The next packet of the command stream, decided from the words presented alone: not from `W`, not from `IDX`,
not from any earlier command (R61). -/
def fetch (input : List HostInput) : Fetched :=
  match input with
  | [] => .idle
  | .reset :: rest => .reset rest
  | .word _ :: _ =>
    match decode (leadingWords input) with
    | .command i rest => .command i (wordInputs rest ++ afterWords input)
    | .illegal _ rest => .illegal (wordInputs rest ++ afterWords input)
    | .incomplete =>
      match afterWords input with
      | [] => .waiting
      | _ :: _ => .cutPacket

/-- The answer to an illegal command word: ILLEGAL_COMMAND, and no change of state (R68, R172). -/
def execIllegal (s : State) : Host.Outcome State Fault Refusal := reject .illegalCommand s

/-- The reset event: the state of R190 whatever the state was; it is no command and gets no response (R191,
R193). -/
def execReset (s : State) : Host.Outcome State Fault Refusal := .next (s.setGen Gen.reset)

/-- The port waits: no command has been issued, so no state changes and no response is given (R28, R70). -/
def execWait (s : State) : Host.Outcome State Fault Refusal := .next s

/-- Reset in the middle of a packet: the spec gives it no meaning (U8), and the model refuses it. -/
def execCutPacket (_ : State) : Host.Outcome State Fault Refusal := .refused .resetInsidePacket

end Sys2Proof.Machine
end

