-- ==== Sys2Proof/Machine/Step.lean ====
section
/-! DEFINITION. One step of the machine: one command, one reset event, or a wait. -/

namespace Sys2Proof.Machine

/-- One step (R49): the next thing the host does is taken from the stream and carried out from start to finish.
Where the stream holds no complete packet the port waits and the state does not change. -/
def step (s : State) : Host.Outcome State Fault Refusal :=
  match fetch s.input with
  | .idle => execWait s
  | .waiting => execWait s
  | .reset rest => execReset (s.setInput rest)
  | .command i rest => exec i (s.setInput rest)
  | .illegal rest => execIllegal (s.setInput rest)
  | .cutPacket => execCutPacket s

/-- The packet that the number `w` of `nbits` bits begins, presented before everything the host has presented:
the very next step takes it and nothing else (log entry 4). -/
def State.withFetchWord (s : State) (nbits w : Nat) : State :=
  s.setInput (wordInputs (tableWords nbits w) ++ s.input)

end Sys2Proof.Machine
end

