-- ==== Sys2Proof/Machine/Pseudo.lean ====
section
/-! DEFINITION. The host-side pseudo-instructions: NEWA (R72, R100), and NEXT64, FILL and SEEDBYTES (R73), which
the scope file puts outside the block (R4). Each is what the host presents, and what the host makes of the
results. They add no command and no state. -/

namespace Sys2Proof.Machine

/-- NEWA: reset, then SEEDA with the same key (R72). -/
def newaInputs (key : List Word) : List HostInput := .reset :: packetInputs (.seeda key)

/-- NEXT64: two NEXT32 commands (R73 (a)). -/
def next64Inputs : List HostInput := packetInputs .next32 ++ packetInputs .next32

/-- What the host forms of NEXT64's two results: `{r2, r1}`, the first word in the low half (R73 (a)). -/
def next64Value (r1 r2 : Word) : BitVec 64 := r2 ++ r1

/-- Byte `n` of a word: bits `8n + 7` to `8n`, little-endian (R43). -/
def byteOfWord (w : Word) (n : Nat) : Byte := w.extractLsb' (8 * n) 8

/-- The four bytes of a word in a byte buffer, in order (R43). -/
def bytesOfWord (w : Word) : List Byte := [byteOfWord w 0, byteOfWord w 1, byteOfWord w 2, byteOfWord w 3]

/-- The word that four bytes of a buffer hold, the first byte the least significant (R43). -/
def wordOfBytes (b0 b1 b2 b3 : Byte) : Word := b3 ++ b2 ++ b1 ++ b0

/-- A byte buffer read as words, word `n` from bytes `4n` to `4n + 3` (R43, R73 (c)). -/
def wordsOfBytes : List Byte → List Word
  | b0 :: b1 :: b2 :: b3 :: rest => wordOfBytes b0 b1 b2 b3 :: wordsOfBytes rest
  | _ => []

/-- FILL `n`: `ceil(n / 4)` NEXT32 commands; FILL 0 presents none (R73 (b)). -/
def fillInputs (n : Nat) : List HostInput := (List.replicate ((n + 3) / 4) (packetInputs .next32)).flatten

/-- The bytes the host writes for FILL `n`: the results' bytes in order, the last word cut to its first
`n mod 4` bytes where `n` is no multiple of 4 (R73 (b)). -/
def fillBytes (n : Nat) (results : List Word) : List Byte := (results.flatMap bytesOfWord).take n

/-- SEEDBYTES `b`: NEWA with the 624 words that the 2496 bytes hold as the key (R73 (c)). -/
def seedBytesInputs (b : Vector Byte 2496) : List HostInput := newaInputs (wordsOfBytes b.toList)

end Sys2Proof.Machine
end

