-- ==== Sys2Proof/Machine/Assembler.lean ====
section
/-! DEFINITION. The assembler notation of R71: one command a line, upper-case mnemonics, decimal or `0x` numbers,
bracketed word lists, `;` comments, and the directive `.REPEAT`. It turns a program text into what the host
presents. SEEDBYTES has no operand notation in R71 and is written as a function (`seedBytesInputs`). -/

namespace Sys2Proof.Machine

/-- What a line can say. -/
inductive AsmLine
  | command (i : Instr)
  /-- `.REPEAT n` before a command: that command written `n` times (R71). -/
  | repeated (n : Nat) (i : Instr)
  | newa (key : List Word)
  | next64
  | fill (n : Nat)
  deriving DecidableEq, Repr

/-- What the host presents for a line (R71 to R73). -/
def AsmLine.inputs : AsmLine → List HostInput
  | .command i => packetInputs i
  | .repeated n i => (List.replicate n (packetInputs i)).flatten
  | .newa key => newaInputs key
  | .next64 => next64Inputs
  | .fill n => fillInputs n

/-- The pieces of a line. -/
inductive Token
  | name (cs : List Char)
  | comma
  | openBracket
  | closeBracket
  deriving DecidableEq, Repr

/-- A name that has been read so far, ended. -/
def endName (cs : List Char) : List Token := if cs = [] then [] else [.name cs]

/-- The tokens of a line; blanks separate, and `;` begins a comment that runs to the end of the line (R71).
`acc` is the name being read. -/
def tokens (acc : List Char) : List Char → List Token
  | [] => endName acc
  | c :: cs =>
    if c = ';' then endName acc
    else if c = ' ' ∨ c = '\t' then endName acc ++ tokens [] cs
    else if c = ',' then endName acc ++ .comma :: tokens [] cs
    else if c = '[' then endName acc ++ .openBracket :: tokens [] cs
    else if c = ']' then endName acc ++ .closeBracket :: tokens [] cs
    else tokens (acc ++ [c]) cs

/-- The value of a digit in a base of at most 16. -/
def digitValue (base : Nat) (c : Char) : Option Nat :=
  let n := c.toNat
  let v := if 48 ≤ n ∧ n ≤ 57 then n - 48
    else if 65 ≤ n ∧ n ≤ 70 then n - 55
    else if 97 ≤ n ∧ n ≤ 102 then n - 87
    else base
  if v < base then some v else none

/-- Digits read on from the value `acc`. -/
def digits (base acc : Nat) : List Char → Option Nat
  | [] => some acc
  | c :: cs =>
    match digitValue base c with
    | some v => digits base (acc * base + v) cs
    | none => none

/-- A number: decimal, or hexadecimal with `0x`, from 0 to 4294967295 (R71). -/
def number (cs : List Char) : Option Nat :=
  let value := match cs with
    | [] => none
    | '0' :: 'x' :: d :: ds => digits 16 0 (d :: ds)
    | d :: ds => digits 10 0 (d :: ds)
  match value with
  | some n => if n ≤ 4294967295 then some n else none
  | none => none

/-- A number as a word. -/
def numberWord (cs : List Char) : Option Word := (number cs).map (BitVec.ofNat 32)

/-- The rest of a word list after its first word, up to the closing bracket, which ends the line (R71). -/
def listRest : List Token → Option (List Word)
  | [.closeBracket] => some []
  | .comma :: .name cs :: ts =>
    match numberWord cs, listRest ts with
    | some w, some ws => some (w :: ws)
    | _, _ => none
  | _ => none

/-- A word list: `[]`, or words with commas between them in square brackets (R71). -/
def wordList : List Token → Option (List Word)
  | [.openBracket, .closeBracket] => some []
  | .openBracket :: .name cs :: ts =>
    match numberWord cs, listRest ts with
    | some w, some ws => some (w :: ws)
    | _, _ => none
  | _ => none

/-- SETST with exactly 624 listed words (R71). -/
def setstOfList (ws : List Word) : Option Instr :=
  if h : ws.length = 624 then some (.setst (wordsOfList ws h)) else none

/-- SEEDA with a key that its length word can count (R62). -/
def seedaOfList (ws : List Word) : Option Instr := if (Instr.seeda ws).wf then some (.seeda ws) else none

/-- One of the eight commands (R71). -/
def commandOfTokens : List Token → Option Instr
  | .name mnemonic :: operands =>
    if mnemonic = ['S', 'E', 'E', 'D', 'S'] then
      match operands with
      | [.name cs] => (numberWord cs).map .seeds
      | _ => none
    else if mnemonic = ['S', 'E', 'E', 'D', 'A'] then (wordList operands).bind seedaOfList
    else if mnemonic = ['N', 'E', 'X', 'T', '3', '2'] then if operands = [] then some .next32 else none
    else if mnemonic = ['N', 'E', 'X', 'T', 'F', '6', '4'] then if operands = [] then some .nextf64 else none
    else if mnemonic = ['G', 'E', 'T', 'S', 'T'] then if operands = [] then some .getst else none
    else if mnemonic = ['S', 'E', 'T', 'S', 'T'] then (wordList operands).bind setstOfList
    else if mnemonic = ['G', 'E', 'T', 'I', 'D', 'X'] then if operands = [] then some .getidx else none
    else if mnemonic = ['S', 'E', 'T', 'I', 'D', 'X'] then
      match operands with
      | [.name cs] => (numberWord cs).map .setidx
      | _ => none
    else none
  | _ => none

/-- A line that is not blank: a directive, a pseudo-instruction or a command (R71 to R73). -/
def lineOfTokens (ts : List Token) : Option AsmLine :=
  match ts with
  | .name mnemonic :: operands =>
    if mnemonic = ['.', 'R', 'E', 'P', 'E', 'A', 'T'] then
      match operands with
      | .name cs :: rest =>
        match number cs, commandOfTokens rest with
        | some n, some i => some (.repeated n i)
        | _, _ => none
      | _ => none
    else if mnemonic = ['N', 'E', 'W', 'A'] then
      ((wordList operands).filter (fun key => (Instr.seeda key).wf)).map .newa
    else if mnemonic = ['N', 'E', 'X', 'T', '6', '4'] then if operands = [] then some .next64 else none
    else if mnemonic = ['F', 'I', 'L', 'L'] then
      match operands with
      | [.name cs] => (number cs).map .fill
      | _ => none
    else (commandOfTokens ts).map .command
  | _ => none

/-- A program text's lines; `acc` is the line being read. -/
def textLines (acc : List Char) : List Char → List (List Char)
  | [] => [acc]
  | c :: cs => if c = '\n' then acc :: textLines [] cs else textLines (acc ++ [c]) cs

/-- The lines assembled in order; a blank or comment line says nothing. None: some line is no line of R71. -/
def assembleLines : List (List Char) → Option (List AsmLine)
  | [] => some []
  | l :: ls =>
    match tokens [] l, assembleLines ls with
    | [], rest => rest
    | ts, some rest => (lineOfTokens ts).map (· :: rest)
    | _, none => none

/-- A program text as what the host presents, line after line (R71, R205). -/
def assemble (text : List Char) : Option (List HostInput) :=
  (assembleLines (textLines [] text)).map (fun ls => ls.flatMap AsmLine.inputs)

end Sys2Proof.Machine
end

