-- ==== Sys2Proof/Safety.lean ====
section
/-! DEFINITION. The terms in which claims speak of the machine: what a seeded, mixed, twisted or tempered value is,
said by the spec's own recurrences and literals and not by the machine's loops; what a legal response is; the
number a binary64 pattern denotes; and a list of commands carried out in order. -/

namespace Sys2Proof.Safety

open Sys2Proof.Machine

/-- `w` is the vector that scalar seeding from `s` gives: word 0 is `s`, and word `i` follows from word `i - 1`
(R91). -/
def SeedOf (s : Word) (w : Words) : Prop :=
  readW w 0 = s ∧
  ∀ i, 1 ≤ i → i ≤ 623 →
    readW w (wIndex i) =
      1812433253#32 * (readW w (wIndex (i - 1)) ^^^ (readW w (wIndex (i - 1)) >>> 30)) + BitVec.ofNat 32 i

/-- The term that one twist step XORs into its source word, from the words at `k` and `k + 1` (R112). -/
def twistMix (a b : Word) : Word :=
  let y := (a &&& 0x80000000#32) ||| (b &&& 0x7FFFFFFF#32)
  (y >>> 1) ^^^ (if y.getLsbD 0 = true then 0x9908B0DF#32 else 0x00000000#32)

/-- `new` is the vector the twist makes of `old`: each read sees the old or the new word as the table of R113
says. -/
def TwistOf (old new : Words) : Prop :=
  (∀ k, k ≤ 226 →
    readW new (wIndex k) =
      readW old (wIndex (k + 397)) ^^^ twistMix (readW old (wIndex k)) (readW old (wIndex (k + 1)))) ∧
  (∀ k, 227 ≤ k → k ≤ 622 →
    readW new (wIndex k) =
      readW new (wIndex (k - 227)) ^^^ twistMix (readW old (wIndex k)) (readW old (wIndex (k + 1)))) ∧
  readW new 623 = readW new 396 ^^^ twistMix (readW old 623) (readW new 0)

/-- The tempering of a raw word, the four steps of R116. -/
def temperOf (y0 : Word) : Word :=
  let y1 := y0 ^^^ (y0 >>> 11)
  let y2 := y1 ^^^ ((y1 <<< 7) &&& 0x9D2C5680#32)
  let y3 := y2 ^^^ ((y2 <<< 15) &&& 0xEFC60000#32)
  y3 ^^^ (y3 >>> 18)

/-- The position of `W` that iteration `n` (from 1) of the mixing passes writes: 1 to 623, over and over. -/
def mixPos (n : Nat) : Nat := 1 + (n - 1) % 623

/-- The key cursor `j` in iteration `n` (from 1) of the first mixing pass over a key of `len` words. -/
def mixKeyPos (len n : Nat) : Nat := if len = 0 then 0 else (n - 1) % len

/-- `w` is the vector that array seeding from `key` gives (R93 to R97), said by the sequence `x` of the words that
the iterations write: iteration `n` combines the word at its position, which the seeded vector `b` or iteration
`n - 623` wrote there, with the word that iteration `n - 1` wrote (`x 0` is the seeded word 0). -/
def MixOf (key : List Word) (w : Words) : Prop :=
  ∃ (b : Words) (x : Nat → Word),
    SeedOf 19650218#32 b ∧
    x 0 = readW b 0 ∧
    (∀ n, 1 ≤ n → n ≤ max 624 key.length →
      x n = ((if n ≤ 623 then readW b (wIndex n) else x (n - 623)) ^^^
          ((x (n - 1) ^^^ (x (n - 1) >>> 30)) * 1664525#32))
        + key.getD (mixKeyPos key.length n) 0#32 + BitVec.ofNat 32 (mixKeyPos key.length n)) ∧
    (∀ n, max 624 key.length < n → n ≤ max 624 key.length + 623 →
      x n = (x (n - 623) ^^^ ((x (n - 1) ^^^ (x (n - 1) >>> 30)) * 1566083941#32)) - BitVec.ofNat 32 (mixPos n)) ∧
    readW w 0 = 0x80000000#32 ∧
    ∀ n, max 624 key.length < n → n ≤ max 624 key.length + 623 → readW w (wIndex (mixPos n)) = x n

/-- One step of the three-range form of the twist, its indices written without `mod` (R114). -/
def rangeStep (k next source : Nat) (w : Words) : Words :=
  writeW w (wIndex k) (readW w (wIndex source) ^^^ twistMix (readW w (wIndex k)) (readW w (wIndex next)))

/-- The three-range form of the twist (R114). -/
def threeRangeTwist (g : Gen) : Gen :=
  let w1 := loop (fun k w => rangeStep k (k + 1) (k + 397) w) 227 g.words
  let w2 := loop (fun n w => rangeStep (n + 227) (n + 228) n w) 396 w1
  { words := rangeStep 623 0 396 w2, idx := 0 }

/-- The number of result words of a command that is executed (R63). -/
def resultCount : Instr → Nat
  | .seeds _ => 0
  | .seeda _ => 0
  | .next32 => 1
  | .nextf64 => 2
  | .getst => 624
  | .setst _ => 0
  | .getidx => 1
  | .setidx _ => 0

/-- A response the block can give: status 0 and as many result words as some command has, or the status word 1 or
2 alone (R63, R64). -/
def LegalResponse (p : List Word) : Prop :=
  p = [1#32] ∨ p = [2#32] ∨
  (p.head? = some 0#32 ∧ (p.length = 1 ∨ p.length = 2 ∨ p.length = 3 ∨ p.length = 625))

/-- Every response given so far is legal. -/
def ResponsesLegal (s : State) : Prop := ∀ p ∈ s.output, LegalResponse p

/-- The rational number that a finite binary64 pattern denotes (R142: sign, biased exponent with bias 1023,
fraction). -/
def binary64Value (d : BitVec 64) : ℚ :=
  let sign : ℚ := if d.getLsbD 63 = true then -1 else 1
  let e := (d.extractLsb' 52 11).toNat
  let f := (d.extractLsb' 0 52).toNat
  if e = 0 then sign * f * (2 : ℚ) ^ (-1074 : ℤ)
  else sign * (1 + f / 2 ^ 52) * (2 : ℚ) ^ ((e : ℤ) - 1023)

/-- A list of commands carried out in order, each on the state the one before left (R49, R205). -/
def execAll : List Instr → State → Host.Outcome State Fault Refusal
  | [], s => .next s
  | i :: is, s =>
    match exec i s with
    | .next t => execAll is t
    | .fault r => .fault r
    | .refused r => .refused r

end Sys2Proof.Safety
end

