-- ==== Sys2Proof/Certificates/Slice0/Obligations.lean ====
section
/-! DEFINITION. The statements for the provers. The words "seeded", "mixed", "twisted", "tempered" and "legal
response" are those of Sys2Proof/Safety.lean, which says them by the spec's own recurrences and literals. -/

open Sys2Proof Sys2Proof.Machine Sys2Proof.Safety

/-! ## Reset -/

/-- R23: after reset every word of the vector is 0; and its index is the never-seeded value (R26, first
sentence). -/
def Obligations.ResetBlockIsEmptyAndUnseeded : Prop :=
  State.reset.gen.idx.val = 625 ∧ ∀ i, readW State.reset.gen.words i = 0x00000000#32

/-- R190, R191: the reset event sets the reset values whatever the state was; it takes itself from the stream and
gets no response. That it stands in the same stream as the words is the model's choice (log entry 1). -/
def Obligations.ResetEventFromAnyState : Prop :=
  ∀ (s : State) (rest : List HostInput), s.input = .reset :: rest →
    ∃ t, step s = .next t ∧ t.gen.idx.val = 625 ∧ (∀ i, readW t.gen.words i = 0x00000000#32) ∧
      t.input = rest ∧ t.output = s.output

/-- R72, R100: NEWA, a reset and then SEEDA, takes two steps and leaves what SEEDA alone leaves, from any state. The
rules say so of the block; the equality is of the whole State, so it says too that the reset event adds no response,
which the model deduces (log entry 6), and that it stands in the stream of the words (log entry 1). -/
def Obligations.NewaLeavesWhatSeedaLeaves : Prop :=
  ∀ (key : List Word) (s : State) (rest : List HostInput), (Instr.seeda key).wf = true →
    s.input = newaInputs key ++ rest →
    ∃ t, Host.Core.run core 2 s = .next t ∧ exec (.seeda key) (s.setInput rest) = .next t

/-! ## Seeding -/

/-- R90: the scramble changes the two lowest bits only, each XORed with one of the two highest. -/
def Obligations.ScrambleFoldsTwoTopBits : Prop :=
  ∀ p : Word, scr p = p ^^^ (p >>> 30) ∧
    (scr p).getLsbD 0 = Bool.xor (p.getLsbD 0) (p.getLsbD 30) ∧
    (scr p).getLsbD 1 = Bool.xor (p.getLsbD 1) (p.getLsbD 31) ∧
    ∀ n, 2 ≤ n → n ≤ 31 → (scr p).getLsbD n = p.getLsbD n

/-- R91: SEEDS `s` is the packet 1, `s`; from every state it answers OK, fills the vector by its recurrence, sets
the index to 624 and changes nothing else. -/
def Obligations.SeedsFillsByRecurrence : Prop :=
  ∀ (seed : Word) (s : State),
    encode (.seeds seed) = [0x00000001#32, seed] ∧
    ∃ w, SeedOf seed w ∧
      exec (.seeds seed) s =
        .next { gen := { words := w, idx := 624 }, input := s.input, output := s.output ++ [[0#32]] }

/-- R93 to R97: SEEDA is the packet 2, `L`, key; from every state and for every key, the empty one included, it
answers OK, fills the vector by the two mixing passes over the seeded vector, forces word 0, sets the index to 624
and changes nothing else. The rules bound a key at 4294967295 words; that a longer list has this effect too, and what
the encoder writes for it, is the model's choice (log entry 7). -/
def Obligations.SeedaFillsByMixingPasses : Prop :=
  ∀ (key : List Word) (s : State),
    encode (.seeda key) = 0x00000002#32 :: BitVec.ofNat 32 key.length :: key ∧
    ∃ w, MixOf key w ∧
      exec (.seeda key) s =
        .next { gen := { words := w, idx := 624 }, input := s.input, output := s.output ++ [[0#32]] }

/-- R94, R95, R97, R99: where the cursors stand after any number of iterations of the two passes; the state cursor
carries over from the first to the second. The spec marks the closed forms as derived (R94, R95, R99: "[derived:
from rule R94 ...]"). -/
def Obligations.MixingCursorsStandWhereTheRulesSay : Prop :=
  ∀ (key : List Word) (w : Words),
    (∀ n, (mix1 key w n).i = 1 + n % 623 ∧
      (mix1 key w n).j = if key.length = 0 then 0 else n % key.length) ∧
    ∀ n, (mix2 (mix1 key w (max 624 key.length)) n).i = 1 + (max 624 key.length + n) % 623

/-- R97: the empty key leaves the state that the one-word key 0 leaves. The spec marks it as derived, "A consequence
of that choice", the choice being its decision D7 (log entry 9). -/
def Obligations.EmptyKeySeedsAsTheKeyZero : Prop :=
  ∀ s : State, exec (.seeda []) s = exec (.seeda [0x00000000#32]) s

/-- R98, R200: what a seeding command leaves in the block depends on its operands alone. The spec marks it as
derived (R98: "stage 1 overwrites all of `W`"). -/
def Obligations.SeedingDiscardsTheOldState : Prop :=
  (∀ seed, ∃ g : Gen, ∀ s : State, exec (.seeds seed) s =
    .next { gen := g, input := s.input, output := s.output ++ [[0#32]] }) ∧
  (∀ key, ∃ g : Gen, ∀ s : State, exec (.seeda key) s =
    .next { gen := g, input := s.input, output := s.output ++ [[0#32]] })

/-! ## Word generation -/

/-- R113: which value each read of the twist sees, for every vector. -/
def Obligations.TwistReadsOldAndNewWords : Prop :=
  ∀ w : Words, TwistOf w (twistWords w)

/-- R114: the three-range form of the twist is the modular form. -/
def Obligations.ThreeRangeTwistIsTheTwist : Prop :=
  ∀ g : Gen, threeRangeTwist g = twist g

/-- R116: tempering is the four steps, and the corner cases. -/
def Obligations.TemperingIsFourSteps : Prop :=
  (∀ y, temper y = temperOf y) ∧
  temper 0x00000000#32 = 0x00000000#32 ∧ temper 0x00000001#32 = 0x00400091#32 ∧
  temper 0x80000000#32 = 0x88102204#32 ∧ temper 0xFFFFFFFF#32 = 0x6FE01BF8#32

/-- R110: NEXT32 is the packet 3; from every state it answers OK and one word, and what it does to the vector and
the index follows from the index by the rule's table. Nothing else changes. -/
def Obligations.Next32ByIndex : Prop :=
  encode .next32 = [0x00000003#32] ∧
  ∀ s : State,
    (∀ n, s.gen.idx.val = n → n ≤ 623 →
      ∃ k : Fin 626, k.val = n + 1 ∧
        exec .next32 s =
          .next { gen := { words := s.gen.words, idx := k }, input := s.input, output := s.output ++
            [[0#32, temperOf (readW s.gen.words (wIndex n))]] }) ∧
    (s.gen.idx.val = 624 →
      ∃ w, TwistOf s.gen.words w ∧
        exec .next32 s =
          .next { gen := { words := w, idx := 1 }, input := s.input, output := s.output ++
            [[0#32, temperOf (readW w 0)]] }) ∧
    (s.gen.idx.val = 625 →
      ∃ b w, SeedOf 5489#32 b ∧ TwistOf b w ∧
        exec .next32 s =
          .next { gen := { words := w, idx := 1 }, input := s.input, output := s.output ++
            [[0#32, 3499211612#32]] } ∧
        temperOf (readW w 0) = 3499211612#32)

/-- R111: a never-seeded block's first generation request, word or double, leaves the block and gives the response
that the same request gives after `SEEDS 5489`. That all of the block agrees, and not the first word alone, the
spec marks as derived (R111: "the two blocks are in the same state from that first call on"). -/
def Obligations.AutoseedIsTheDefaultSeed : Prop :=
  ∀ s t : State, s.gen.idx.val = 625 → exec (.seeds 5489#32) s = .next t →
    ∀ i, i = .next32 ∨ i = .nextf64 →
      ∃ g p, exec i s = .next { gen := g, input := s.input, output := s.output ++ [p] } ∧
        exec i t = .next { gen := g, input := t.input, output := t.output ++ [p] }

/-- R119: the NEXT32 commands after a seeding command twist at the first, the 625th, ...; command `n` extracts the
word at `(n - 1) mod 624` and leaves the index one above it (so 624, not 0, after 624 commands). The spec marks it
as derived and as its correction of the source (R119, C1). -/
def Obligations.TwistPositionsAfterSeeding : Prop :=
  ∀ s : State, s.gen.idx.val = 624 → ∀ n, 1 ≤ n →
    ∃ t u, execAll (List.replicate (n - 1) .next32) s = .next t ∧ exec .next32 t = .next u ∧
      u.gen.idx.val = (n - 1) % 624 + 1 ∧
      (if (n - 1) % 624 = 0 then TwistOf t.gen.words u.gen.words else u.gen.words = t.gen.words) ∧
      u.output = t.output ++ [[0#32, temperOf (readW u.gen.words (wIndex (n - 1)))]]

/-- R120: the all-zero vector with an index from 0 to 624 yields zeros and stays all zero; and neither seed loader
leaves an all-zero vector. The spec marks it as derived (R120: "[derived: from rules R112, R116 ...]"). -/
def Obligations.AllZeroVectorIsAFixedPoint : Prop :=
  (∀ w : Words, (∀ i, readW w i = 0#32) → ∀ i, readW (twistWords w) i = 0#32) ∧
  (∀ s : State, (∀ i, readW s.gen.words i = 0#32) → s.gen.idx.val ≤ 624 →
    (∃ t, exec .next32 s = .next t ∧ (∀ i, readW t.gen.words i = 0#32) ∧
      t.gen.idx.val = s.gen.idx.val % 624 + 1 ∧ t.output = s.output ++ [[0#32, 0#32]]) ∧
    (∃ t, exec .nextf64 s = .next t ∧ (∀ i, readW t.gen.words i = 0#32) ∧
      t.gen.idx.val = (s.gen.idx.val % 624 + 1) % 624 + 1 ∧ t.output = s.output ++ [[0#32, 0#32, 0#32]])) ∧
  (∀ (seed : Word) (s t : State), exec (.seeds seed) s = .next t → ∃ i, readW t.gen.words i ≠ 0#32) ∧
  (∀ (key : List Word) (s t : State), exec (.seeda key) s = .next t → ∃ i, readW t.gen.words i ≠ 0#32)

/-- R121: the low 31 bits of word 0 do not enter the twist; a vector with no other bit set twists to all zero and
stays all zero through every later twist. The spec marks it as derived (R121: "[derived: from rules R112 and
R113]"). -/
def Obligations.TwistIgnoresLowBitsOfWordZero : Prop :=
  (∀ v w : Words, (∀ i, i ≠ 0 → readW v i = readW w i) →
    (readW v 0).getLsbD 31 = (readW w 0).getLsbD 31 → twistWords v = twistWords w) ∧
  (∀ w : Words, (∀ i, i ≠ 0 → readW w i = 0#32) → (readW w 0).getLsbD 31 = false →
    ∀ n i, readW (twistWords^[n + 1] w) i = 0#32)

/-! ## Doubles -/

/-- R140: NEXTF64 is the packet 4; from every state it does to the block what two NEXT32 commands do, one after
the other, and answers OK and the pattern of their two words, low word first; where the index stands after it; and
at most one of the two draws twists, the second never auto-seeds. The spec marks the equality with two NEXT32
commands as derived from "using exactly two consecutive 32-bit word-generation calls" (R140, D15). -/
def Obligations.NextF64IsTwoWordsInOrder : Prop :=
  encode .nextf64 = [0x00000004#32] ∧
  ∀ s : State, ∃ (g1 g2 : Gen) (r1 r2 : Word),
    exec .next32 s = .next { gen := g1, input := s.input, output := s.output ++ [[0#32, r1]] } ∧
    exec .next32 (s.setGen g1) = .next { gen := g2, input := s.input, output := s.output ++ [[0#32, r2]] } ∧
    exec .nextf64 s =
      .next { gen := g2, input := s.input, output := s.output ++
        [[0#32, (f64conv r1 r2).extractLsb' 0 32, (f64conv r1 r2).extractLsb' 32 32]] } ∧
    (s.gen.idx.val ≤ 622 → g2.idx.val = s.gen.idx.val + 2) ∧
    (s.gen.idx.val = 623 → g2.idx.val = 1) ∧
    (624 ≤ s.gen.idx.val → g2.idx.val = 2) ∧
    g1.idx.val ≠ 625 ∧ (624 ≤ s.gen.idx.val → g1.idx.val < 624)

/-- R141, R142: the converter's pattern has sign 0, is +0.0 or has the exponent and the fraction of the rule, and
denotes exactly `m / 2^53`, `m` the 27 high bits of the first word above the 26 high bits of the second. The spec
marks the exactness as derived (R141) and the binary64 format as general knowledge (R142, log entry 9). -/
def Obligations.F64PatternDenotesTheExactValue : Prop :=
  ∀ word1 word2 : Word,
    let m := (word1 >>> 5).toNat * 67108864 + (word2 >>> 6).toNat
    let d := f64conv word1 word2
    m < 9007199254740992 ∧
    binary64Value d = (m : ℚ) / 9007199254740992 ∧
    d.getLsbD 63 = false ∧
    (m = 0 → d = 0x0000000000000000#64) ∧
    (m ≠ 0 → ∃ p, 2 ^ p ≤ m ∧ m < 2 ^ (p + 1) ∧ p ≤ 52 ∧
      (d.extractLsb' 52 11).toNat = 970 + p ∧
      (d.extractLsb' 0 52).toNat = (m * 2 ^ (52 - p)) % 2 ^ 52)

/-- R143: every `m / 2^53` is the result of some pair of words, and two pairs give the same result exactly when
they agree in the bits that are kept. The spec marks it as derived (R143: "[derived: from rules R141 and
R142]"). -/
def Obligations.F64ResultsAreTheKeptBits : Prop :=
  (∀ m, m < 9007199254740992 → ∃ word1 word2, f64conv word1 word2 = binary64 m) ∧
  ∀ a b c d : Word, f64conv a b = f64conv c d ↔
    (a.extractLsb' 5 27 = c.extractLsb' 5 27 ∧ b.extractLsb' 6 26 = d.extractLsb' 6 26)

/-- R144: the first word supplies the high 27 bits and the second the low 26, and the order matters: the two
patterns of the worked pair, which the spec marks as derived (R141, R144). -/
def Obligations.F64WordOrderIsFixed : Prop :=
  (∀ word1 word2 : Word, f64Mantissa word1 word2 / 2 ^ 26 = (word1.extractLsb' 5 27).toNat ∧
    f64Mantissa word1 word2 % 2 ^ 26 = (word2.extractLsb' 6 26).toNat) ∧
  f64conv 0x6AA79987#32 0xBB91433A#32 = 0x3FDAA9E665DC8A18#64 ∧
  f64conv 0xBB91433A#32 0x6AA79987#32 = 0x3FE7722865AA9E66#64

/-! ## State access -/

/-- R150: GETST is the packet 5; from every state it answers OK and the 624 words in ascending order, and changes
nothing. -/
def Obligations.GetstAnswersTheWholeVector : Prop :=
  encode .getst = [0x00000005#32] ∧
  ∀ s : State, ∃ ws : List Word, ws.length = 624 ∧
    (∀ n, n < 624 → ws[n]? = some (readW s.gen.words (wIndex n))) ∧
    exec .getst s = .next { gen := s.gen, input := s.input, output := s.output ++ [0#32 :: ws] }

/-- R151: SETST is the packet 6 and 624 words in ascending order; from every state it answers OK, replaces every
word, and leaves the index, 625 included; loading the words GETST returns changes nothing in the block. -/
def Obligations.SetstReplacesTheVectorOnly : Prop :=
  ∀ (v : Words) (s : State),
    (∃ ws : List Word, encode (.setst v) = 0x00000006#32 :: ws ∧ ws.length = 624 ∧
      ∀ n, n < 624 → ws[n]? = some (readW v (wIndex n))) ∧
    (∃ w, (∀ i, readW w i = readW v i) ∧
      exec (.setst v) s =
        .next { gen := { words := w, idx := s.gen.idx }, input := s.input, output := s.output ++ [[0#32]] }) ∧
    exec (.setst s.gen.words) s = .next { gen := s.gen, input := s.input, output := s.output ++ [[0#32]] }

/-- R152: GETIDX is the packet 7; from every state it answers OK and the index as a word, 625 included, and changes
nothing. -/
def Obligations.GetidxAnswersTheIndex : Prop :=
  encode .getidx = [0x00000007#32] ∧
  ∀ s : State, ∃ r : Word, r.toNat = s.gen.idx.val ∧
    exec .getidx s = .next { gen := s.gen, input := s.input, output := s.output ++ [[0#32, r]] }

/-- R153, R171: SETIDX is the packet 8, `idx`; an operand from 0 to 624 is accepted and written, with the vector
untouched; every other operand, 625 included, is answered with INVALID_ARGUMENT alone and changes nothing. -/
def Obligations.SetidxChecksItsOperand : Prop :=
  ∀ (idx : Word) (s : State),
    encode (.setidx idx) = [0x00000008#32, idx] ∧
    (idx.toNat ≤ 624 → ∃ n : Fin 626, n.val = idx.toNat ∧
      exec (.setidx idx) s =
        .next { gen := { words := s.gen.words, idx := n }, input := s.input, output := s.output ++ [[0#32]] }) ∧
    (624 < idx.toNat →
      exec (.setidx idx) s = .next { gen := s.gen, input := s.input, output := s.output ++ [[1#32]] })

/-- R154: the words GETST answers and the index GETIDX answers, written by SETST and SETIDX in either order, bring
any block to the state they were read from, where that index is not 625. The spec marks it as derived (R154:
"[derived: from rules R150 to R153 ...]"). -/
def Obligations.SnapshotRestoresTheBlock : Prop :=
  ∀ (s t : State) (v : Words) (idx : Word), s.gen.idx.val ≤ 624 →
    exec .getst s = .next { gen := s.gen, input := s.input, output := s.output ++ [0#32 :: v.toList] } →
    exec .getidx s = .next { gen := s.gen, input := s.input, output := s.output ++ [[0#32, idx]] } →
    ∃ u, execAll [.setst v, .setidx idx] t = .next u ∧ execAll [.setidx idx, .setst v] t = .next u ∧
      u.gen = s.gen ∧ u.input = t.input ∧ u.output = t.output ++ [[0#32], [0#32]]

/-- R194: words loaded into a never-seeded block are lost at the first generation request, word or double, which
leaves the block and gives the response that it would on a block right after reset, whatever that block's streams
hold; for NEXT32 the response is the first word of the default sequence. The spec marks it as derived (R194). -/
def Obligations.LoadingWordsIsNotSeeding : Prop :=
  ∀ (v : Words) (s u : State), s.gen.idx.val = 625 → u.gen = State.reset.gen →
    ∀ i, i = .next32 ∨ i = .nextf64 →
      ∃ t g p, exec (.setst v) s = .next t ∧
        exec i t = .next { gen := g, input := s.input, output := s.output ++ [[0#32], p] } ∧
        exec i u = .next { gen := g, input := u.input, output := u.output ++ [p] } ∧
        (i = .next32 → p = [0#32, 3499211612#32])

/-- R197: SETIDX `n` with `n < 624` straight after SEEDS skips the twist: the next word is the tempered seed word
`n` itself. The spec marks it as derived (R197). -/
def Obligations.IndexBelow624AfterSeedingSkipsTheTwist : Prop :=
  ∀ (seed : Word) (n : Nat) (s : State), n < 624 →
    ∃ (w : Words) (k : Fin 626), SeedOf seed w ∧ k.val = n + 1 ∧
      execAll [.seeds seed, .setidx (BitVec.ofNat 32 n), .next32] s =
        .next { gen := { words := w, idx := k }, input := s.input, output := s.output ++
          [[0#32], [0#32], [0#32, temperOf (readW w (wIndex n))]] }

/-! ## Errors and responses -/

/-- R68, R172: a command word other than the eight is taken alone, whatever follows it; the answer is
ILLEGAL_COMMAND alone and the block does not change. -/
def Obligations.IllegalWordIsAnsweredAndForgotten : Prop :=
  ∀ (s : State) (w : Word) (rest : List HostInput), s.input = .word w :: rest →
    (w.toNat = 0 ∨ 8 < w.toNat) →
    step s = .next { gen := s.gen, input := rest, output := s.output ++ [[2#32]] }

/-- R171: INVALID_ARGUMENT is the answer to SETIDX with an operand above 624 and to no other command. -/
def Obligations.InvalidArgumentFromSetidxOnly : Prop :=
  ∀ (i : Instr) (s t : State), exec i s = .next t →
    (t.output = s.output ++ [[1#32]] ↔ ∃ idx, i = .setidx idx ∧ 624 < idx.toNat)

/-- R177: where a step answers with a status other than OK, the block after it is the block before it, and the
status word is the whole response. -/
def Obligations.ErrorsLeaveNoTrace : Prop :=
  ∀ (s t : State) (status : Word) (results : List Word), step s = .next t →
    t.output = s.output ++ [status :: results] → status ≠ 0#32 →
    t.gen = s.gen ∧ results = [] ∧ (status = 1#32 ∨ status = 2#32)

/-- R63: every command, from every state, gives exactly one response: OK and the command's number of result words,
or, SETIDX alone, the status 1 and nothing after it. It takes nothing from the stream. -/
def Obligations.OneResponsePerCommand : Prop :=
  ∀ (i : Instr) (s : State), ∃ t p, exec i s = .next t ∧ t.output = s.output ++ [p] ∧ t.input = s.input ∧
    ((p.head? = some 0#32 ∧ p.length = 1 + resultCount i) ∨
      (p = [1#32] ∧ ∃ idx, i = .setidx idx ∧ 624 < idx.toNat))

/-- The responses given are legal at reset: none is given. -/
def Obligations.ResponsesLegalAtReset : Prop := ResponsesLegal State.reset

/-- R64: a step from a state in which every response is legal leaves a state in which every response is legal. -/
def Obligations.StepKeepsResponsesLegal : Prop :=
  ∀ s t : State, ResponsesLegal s → step s = .next t → ResponsesLegal t

/-! ## The whole machine -/

/-- R27: the index is 625 after a step only if it was 625 before it or the step was a reset event; and no
generation, seeding or accepted SETIDX leaves it 625. The spec marks it as derived (R27). -/
def Obligations.NeverSeededOnlyFromReset : Prop :=
  (∀ s t : State, step s = .next t → t.gen.idx.val = 625 →
    s.gen.idx.val = 625 ∨ s.input.head? = some .reset) ∧
  (∀ (i : Instr) (s t : State), exec i s = .next t → t.gen.idx.val = 625 →
    s.gen.idx.val = 625 ∧ i ≠ .next32 ∧ i ≠ .nextf64 ∧ (∀ seed, i ≠ .seeds seed) ∧ (∀ key, i ≠ .seeda key) ∧
      ∀ idx, i = .setidx idx → 624 < idx.toNat)

/-- R178, R192: every step answers a next state, but where the host applies reset in the middle of a packet. Two
clauses are the model's choice: that an idle port or an unfinished packet answers a next state (log entry 3), and
that reset inside a packet is refused (log entry 5). -/
def Obligations.StepStopsOnlyAtAResetInsideAPacket : Prop :=
  ∀ s : State,
    (∃ t, step s = .next t) ∨
    (step s = .refused .resetInsidePacket ∧ decode (leadingWords s.input) = .incomplete ∧
      leadingWords s.input ≠ [] ∧ ∃ rest, afterWords s.input = .reset :: rest)

/-- A step runs the decoded command: where the words presented next decode to a command, the step is that command
on the state from whose stream its packet has been taken. -/
def Obligations.StepRunsTheDecodedCommand : Prop :=
  ∀ (s : State) (i : Instr) (rest : List Word), decode (leadingWords s.input) = .command i rest →
    step s = exec i (s.setInput (wordInputs rest ++ afterWords s.input))

/-- R70: where only some words of a packet are presented and nothing after them, a step changes nothing. That the
wait is a step, not a refusal, is the model's choice (log entry 3). -/
def Obligations.UnfinishedPacketChangesNothing : Prop :=
  ∀ (i : Instr) (s : State) (k : Nat), i.wf = true → k < (encode i).length →
    s.input = wordInputs ((encode i).take k) → step s = .next s

/-- R49: the packets of a list of commands, presented one after another, are carried out in list order, one command
a step, each on the state the one before left. -/
def Obligations.CommandListRunsInOrder : Prop :=
  ∀ (is : List Instr) (s : State) (rest : List HostInput), (∀ i ∈ is, i.wf = true) →
    s.input = is.flatMap packetInputs ++ rest →
    Host.Core.run core is.length s = execAll is (s.setInput rest)

/-- R34: from equal blocks the same commands give the same responses and leave equal blocks, whatever the streams
hold. -/
def Obligations.EqualBlocksBehaveAlike : Prop :=
  ∀ (is : List Instr) (s t : State), s.gen = t.gen →
    ∃ (g : Gen) (ps : List (List Word)), ps.length = is.length ∧
      execAll is s = .next { gen := g, input := s.input, output := s.output ++ ps } ∧
      execAll is t = .next { gen := g, input := t.input, output := t.output ++ ps }

/-! ## Encoding -/

/-- Decode and encode agree: the packet of every well-formed command, whatever follows it, decodes to that command
with every operand as given, and leaves what follows it. -/
def Obligations.DecodeInvertsEncode : Prop :=
  ∀ (i : Instr) (rest : List Word), i.wf = true → decode (encode i ++ rest) = .command i rest

/-- R61: there are no alternative encodings: words that decode to a command are its packet and what is left. -/
def Obligations.EncodeInvertsDecode : Prop :=
  ∀ (ws : List Word) (i : Instr) (rest : List Word), decode ws = .command i rest →
    ws = encode i ++ rest ∧ i.wf = true

/-- R67: words written out from the spec's encodings decode to the commands they stand for, and words outside the
map to none. -/
def Obligations.SpecWordsDecode : Prop :=
  decode [0x00000001#32, 0x00001571#32] = .command (.seeds 5489#32) [] ∧
  decode [0x00000002#32, 0x00000001#32, 0x00003039#32] = .command (.seeda [12345#32]) [] ∧
  decode [0x00000003#32, 0x00000007#32] = .command .next32 [0x00000007#32] ∧
  decode [0x00000004#32] = .command .nextf64 [] ∧
  decode [0x00000005#32] = .command .getst [] ∧
  decode [0x00000007#32] = .command .getidx [] ∧
  decode [0x00000008#32, 0x000002BC#32] = .command (.setidx 700#32) [] ∧
  decode [0x00000103#32, 0x00000000#32] = .illegal 0x00000103#32 [0x00000000#32]

/-! ## The host's side -/

/-- R43, R73: byte `n` of a word is its bits `8n + 7` to `8n` and stands at place `n` of its four bytes; reading a
byte buffer as words undoes writing the words as bytes. FILL `n` presents `ceil(n / 4)` NEXT32 commands and delivers
`n` bytes, byte `k` being byte `k mod 4` of result `k / 4`. SEEDBYTES of the bytes of 624 words is NEWA with those
words. NEXT64 presents two NEXT32 commands and has the first result in its low half. -/
def Obligations.ByteViewsOfWordsAreLittleEndian : Prop :=
  (∀ (w : Word) (n : Nat), n < 4 → (byteOfWord w n).toNat = w.toNat / 256 ^ n % 256) ∧
  (∀ w : Word, (bytesOfWord w).length = 4 ∧ ∀ n, n < 4 → (bytesOfWord w)[n]? = some (byteOfWord w n)) ∧
  (∀ ws : List Word, wordsOfBytes (ws.flatMap bytesOfWord) = ws) ∧
  (∀ n : Nat, fillInputs n = List.replicate ((n + 3) / 4) (.word 0x00000003#32)) ∧
  (∀ (n : Nat) (results : List Word), results.length = (n + 3) / 4 →
    (fillBytes n results).length = n ∧
    ∀ k, k < n → ∃ w, results[k / 4]? = some w ∧ (fillBytes n results)[k]? = some (byteOfWord w (k % 4))) ∧
  (∀ (b : Vector Byte 2496) (ws : List Word), b.toList = ws.flatMap bytesOfWord →
    ws.length = 624 ∧ seedBytesInputs b = newaInputs ws) ∧
  next64Inputs = [.word 0x00000003#32, .word 0x00000003#32] ∧
  (∀ r1 r2 : Word, (next64Value r1 r2).toNat = r2.toNat * 4294967296 + r1.toNat)
end

