-- ==== Sys2Proof/Laws/Ops.lean ====
section
/-! SUPPORT. The laws of the block's store and of the counted loop. -/

namespace Sys2Proof.Machine

/-- A read gives the word last written to the index read, and otherwise what was there. -/
theorem readW_writeW (w : Words) (i j : Fin 624) (v : Word) :
    readW (writeW w i v) j = if i = j then v else readW w j := by
  unfold readW writeW
  by_cases h : i = j
  · subst h; simp
  · have : i.val ≠ j.val := fun e => h (Fin.ext e)
    simp [h, this]

@[simp] theorem readW_writeW_same (w : Words) (i : Fin 624) (v : Word) : readW (writeW w i v) i = v := by
  simp [readW_writeW]

theorem readW_writeW_ne (w : Words) {i j : Fin 624} (v : Word) (h : i ≠ j) :
    readW (writeW w i v) j = readW w j := by
  simp [readW_writeW, h]

/-- Vectors with the same word at every index are equal. -/
theorem words_ext {v w : Words} (h : ∀ i, readW v i = readW w i) : v = w := by
  apply Vector.ext
  intro i hi
  exact h ⟨i, hi⟩

theorem wIndex_val (n : Nat) : (wIndex n).val = n % 624 := rfl

theorem wIndex_val_of_lt {n : Nat} (h : n < 624) : (wIndex n).val = n := Nat.mod_eq_of_lt h

/-- Below 624 the index expression is the index itself (R41). -/
theorem wIndex_fin (i : Fin 624) : wIndex i.val = i := Fin.ext (Nat.mod_eq_of_lt i.isLt)

/-- The index expressions reduce modulo 624 (R11, R41). -/
theorem wIndex_mod (n : Nat) : wIndex (n % 624) = wIndex n := Fin.ext (Nat.mod_mod _ _)

theorem wIndex_eq_iff {m n : Nat} (hm : m < 624) (hn : n < 624) : wIndex m = wIndex n ↔ m = n := by
  constructor
  · intro h
    have := congrArg Fin.val h
    rwa [wIndex_val_of_lt hm, wIndex_val_of_lt hn] at this
  · rintro rfl; rfl

/-- Reading at a numbered index after writing at a numbered index. -/
theorem readW_writeW_index {m n : Nat} (hm : m < 624) (hn : n < 624) (w : Words) (v : Word) :
    readW (writeW w (wIndex m) v) (wIndex n) = if m = n then v else readW w (wIndex n) := by
  rw [readW_writeW]
  simp only [wIndex_eq_iff hm hn]

/-- Vectors with the same word at every numbered index are equal. -/
theorem words_ext_index {v w : Words} (h : ∀ n, n < 624 → readW v (wIndex n) = readW w (wIndex n)) : v = w :=
  words_ext fun i => by simpa only [wIndex_fin] using h i.val i.isLt

theorem idxOf_val_of_lt {n : Nat} (h : n < 626) : (idxOf n).val = n := Nat.mod_eq_of_lt h

@[simp] theorem loop_zero {α : Type} (f : Nat → α → α) (a : α) : loop f 0 a = a := by
  with_unfolding_all rfl

theorem loop_succ {α : Type} (f : Nat → α → α) (n : Nat) (a : α) : loop f (n + 1) a = f n (loop f n a) := by
  with_unfolding_all rfl

/-- What holds at the start and is kept by each step holds after any number of steps. -/
theorem loop_induction {α : Type} {f : Nat → α → α} {a : α} {P : Nat → α → Prop} (n : Nat) (h0 : P 0 a)
    (hs : ∀ k b, k < n → P k b → P (k + 1) (f k b)) : P n (loop f n a) := by
  induction n with
  | zero => rw [loop_zero]; exact h0
  | succ n ih => rw [loop_succ]; exact hs n _ (Nat.lt_succ_self n) (ih fun k b hk => hs k b (Nat.lt_succ_of_lt hk))

/-- Loops whose steps agree below the bound agree. -/
theorem loop_congr {α : Type} {f g : Nat → α → α} (n : Nat) (a : α)
    (h : ∀ k b, k < n → f k b = g k b) : loop f n a = loop g n a := by
  induction n with
  | zero => rw [loop_zero, loop_zero]
  | succ n ih =>
    rw [loop_succ, loop_succ, ih fun k b hk => h k b (Nat.lt_succ_of_lt hk)]
    exact h n _ (Nat.lt_succ_self n)

/-- A loop in two parts. -/
theorem loop_add {α : Type} (f : Nat → α → α) (m n : Nat) (a : α) :
    loop f (m + n) a = loop (fun k => f (m + k)) n (loop f m a) := by
  induction n with
  | zero => rw [loop_zero, Nat.add_zero]
  | succ n ih => rw [← Nat.add_assoc, loop_succ, loop_succ, ih]

end Sys2Proof.Machine
end

