-- ==== Sys2Proof/Laws/Seeding.lean ====
section
/-! SUPPORT. What the seeding loops leave in the vector, word by word, and where the mixing cursors stay. -/

namespace Sys2Proof.Machine

/-- Word `n` of the vector that scalar seeding from `s` gives, by itself (R91). -/
def seedWordAt (s : Word) : Nat → Word
  | 0 => s
  | n + 1 => SEED_MULT * scr (seedWordAt s n) + toWord (n + 1)

/-- After the first `n` steps of scalar seeding, words 0 to `n` are final. -/
theorem seedLoop_read (s : Word) (w : Words) (n : Nat) (hn : n ≤ 623) :
    ∀ k, k ≤ n → readW (loop seedStep n (writeW w 0 s)) (wIndex k) = seedWordAt s k := by
  refine loop_induction (f := seedStep) (P := fun n v => ∀ k, k ≤ n → readW v (wIndex k) = seedWordAt s k) n ?_ ?_
  · intro k hk
    obtain rfl : k = 0 := by omega
    exact readW_writeW_same w 0 s
  · intro j v hj ih k hk
    unfold seedStep
    rw [readW_writeW_index (by omega) (by omega)]
    split
    · next h => subst h; rw [ih j (Nat.le_refl j)]; rfl
    · exact ih k (by omega)

/-- Scalar seeding word by word; the old vector has no influence. -/
theorem seedWords_read (s : Word) (w : Words) {k : Nat} (hk : k < 624) :
    readW (seedWords s w) (wIndex k) = seedWordAt s k :=
  seedLoop_read s w 623 (Nat.le_refl _) k (by omega)

/-- Scalar seeding does not depend on the vector it overwrites. -/
theorem seedWords_indep (s : Word) (v w : Words) : seedWords s v = seedWords s w :=
  words_ext_index fun n hn => by rw [seedWords_read s v hn, seedWords_read s w hn]

theorem seedGen_indep (s : Word) (g h : Gen) : seedGen s g = seedGen s h := by
  simp only [seedGen, seedWords_indep s g.words h.words]

@[simp] theorem advanceI_j (m : Mix) : (advanceI m).j = m.j := by unfold advanceI; split <;> rfl

theorem advanceI_i (m : Mix) : (advanceI m).i = if m.i + 1 ≥ 624 then 1 else m.i + 1 := by
  unfold advanceI; split <;> simp_all

@[simp] theorem advanceJ_words (len : Nat) (m : Mix) : (advanceJ len m).words = m.words := by
  unfold advanceJ; split <;> rfl

@[simp] theorem advanceJ_i (len : Nat) (m : Mix) : (advanceJ len m).i = m.i := by unfold advanceJ; split <;> rfl

theorem advanceJ_j (len : Nat) (m : Mix) : (advanceJ len m).j = if m.j + 1 ≥ len then 0 else m.j + 1 := by
  unfold advanceJ; split <;> simp_all

theorem mix1_zero (key : List Word) (w : Words) : mix1 key w 0 = { words := w, i := 1, j := 0 } := loop_zero _ _

theorem mix2_zero (m : Mix) : mix2 m 0 = m := loop_zero _ _

theorem mix1_succ (key : List Word) (w : Words) (n : Nat) :
    mix1 key w (n + 1) = mix1Step key (mix1 key w n) := loop_succ _ _ _

theorem mix2_succ (m : Mix) (n : Nat) : mix2 m (n + 1) = mix2Step (mix2 m n) := loop_succ _ _ _

/-- In the first mixing pass the state cursor stays in 1 to 623 and the key cursor names a word of the key, or is
0 when there is none (R11, R94, R97). -/
theorem mix1_cursors_bounded (key : List Word) (w : Words) (n : Nat) :
    1 ≤ (mix1 key w n).i ∧ (mix1 key w n).i ≤ 623 ∧
      ((mix1 key w n).j < key.length ∨ (key.length = 0 ∧ (mix1 key w n).j = 0)) := by
  induction n with
  | zero =>
    rw [mix1_zero]
    show 1 ≤ 1 ∧ 1 ≤ 623 ∧ (0 < key.length ∨ (key.length = 0 ∧ 0 = 0))
    omega
  | succ n ih =>
    rw [mix1_succ]
    simp only [mix1Step, advanceJ_i, advanceI_i, advanceJ_j, advanceI_j]
    split_ifs <;> omega

/-- In the second mixing pass the state cursor stays in 1 to 623 (R11, R95). -/
theorem mix2_cursor_bounded (m : Mix) (h1 : 1 ≤ m.i) (h2 : m.i ≤ 623) (n : Nat) :
    1 ≤ (mix2 m n).i ∧ (mix2 m n).i ≤ 623 := by
  induction n with
  | zero => rw [mix2_zero]; exact ⟨h1, h2⟩
  | succ n ih =>
    rw [mix2_succ]
    simp only [mix2Step, advanceI_i]
    split_ifs <;> omega

/-- What one write and one advance of the state cursor leave: the written word, the copy of word 623 in word 0
when the cursor wraps, and every other word as before (R94, R95). -/
theorem advanceI_write_read (w : Words) (i j : Nat) (v : Word) (h1 : 1 ≤ i) (h2 : i ≤ 623) {k : Nat} (hk : k < 624) :
    readW (advanceI { words := writeW w (wIndex i) v, i := i, j := j }).words (wIndex k) =
      if k = i then v else if k = 0 ∧ i = 623 then v else readW w (wIndex k) := by
  unfold advanceI
  split
  · next h =>
    have h' : i + 1 ≥ 624 := h
    obtain rfl : i = 623 := by omega
    have h623 : (623 : Fin 624) = wIndex 623 := rfl
    have h0 : (0 : Fin 624) = wIndex 0 := rfl
    simp only [h623, h0]
    rw [readW_writeW_index (by omega) hk, readW_writeW_same, readW_writeW_index (by omega) hk]
    split_ifs <;> first | rfl | omega | simp_all
  · next h =>
    have h' : ¬ i + 1 ≥ 624 := h
    rw [readW_writeW_index (by omega) hk]
    split_ifs <;> first | rfl | omega

/-- Array seeding forces word 0 (R96). -/
theorem seedaWords_read_zero (key : List Word) (w : Words) : readW (seedaWords key w) 0 = ARRAY_W0 :=
  readW_writeW_same _ 0 _

/-- Array seeding does not depend on the vector it overwrites. -/
theorem seedaWords_indep (key : List Word) (v w : Words) : seedaWords key v = seedaWords key w := by
  simp only [seedaWords, seedWords_indep ARRAY_BASE_SEED v w]

theorem seedaGen_indep (key : List Word) (g h : Gen) : seedaGen key g = seedaGen key h := by
  simp only [seedaGen, seedaWords_indep key g.words h.words]

end Sys2Proof.Machine
end

