-- ==== Sys2Proof/Laws/State.lean ====
section
/-! SUPPORT. What each update of the state leaves in each field: one lemma per field per update, true by
unfolding. -/

namespace Sys2Proof.Machine

@[simp] theorem Gen.setWords_words (g : Gen) (w : Words) : (g.setWords w).words = w := rfl
@[simp] theorem Gen.setWords_idx (g : Gen) (w : Words) : (g.setWords w).idx = g.idx := rfl
@[simp] theorem Gen.setIdx_words (g : Gen) (n : Fin 626) : (g.setIdx n).words = g.words := rfl
@[simp] theorem Gen.setIdx_idx (g : Gen) (n : Fin 626) : (g.setIdx n).idx = n := rfl

@[simp] theorem State.setGen_gen (s : State) (g : Gen) : (s.setGen g).gen = g := rfl
@[simp] theorem State.setGen_input (s : State) (g : Gen) : (s.setGen g).input = s.input := rfl
@[simp] theorem State.setGen_output (s : State) (g : Gen) : (s.setGen g).output = s.output := rfl
@[simp] theorem State.setInput_gen (s : State) (r : List HostInput) : (s.setInput r).gen = s.gen := rfl
@[simp] theorem State.setInput_input (s : State) (r : List HostInput) : (s.setInput r).input = r := rfl
@[simp] theorem State.setInput_output (s : State) (r : List HostInput) : (s.setInput r).output = s.output := rfl
@[simp] theorem State.respond_gen (s : State) (p : List Word) : (s.respond p).gen = s.gen := rfl
@[simp] theorem State.respond_input (s : State) (p : List Word) : (s.respond p).input = s.input := rfl
@[simp] theorem State.respond_output (s : State) (p : List Word) : (s.respond p).output = s.output ++ [p] := rfl

/-- Two states of the block are equal when their vectors and their indices are. -/
theorem Gen.eq_of_fields {g h : Gen} (hw : g.words = h.words) (hi : g.idx = h.idx) : g = h := by
  cases g; cases h; cases hw; cases hi; rfl

/-- Two machines are equal when their blocks and their streams are. -/
theorem State.eq_of_fields {s t : State} (hg : s.gen = t.gen) (hi : s.input = t.input)
    (ho : s.output = t.output) : s = t := by
  cases s; cases t; cases hg; cases hi; cases ho; rfl

/-- The next state of a completed command, field by field. -/
theorem complete_eq (g : Gen) (results : List Word) (s : State) :
    complete g results s =
      .next { gen := g, input := s.input, output := s.output ++ [okPacket results] } := rfl

/-- The next state of a rejected command, field by field: the block's state is the one before. -/
theorem reject_eq (st : Status) (s : State) :
    reject st s = .next { gen := s.gen, input := s.input, output := s.output ++ [[statusWord st]] } := rfl

end Sys2Proof.Machine
end

