-- ==== Sys2Proof/Laws/Generation.lean ====
section
/-! SUPPORT. What the twist leaves word by word, where the index stands around an extraction, and the word
generator case by case. -/

namespace Sys2Proof.Machine

/-- Step `k` of the twist writes word `k` and nothing else. -/
theorem twistStep_read (k : Nat) (w : Words) {n : Nat} (hk : k < 624) (hn : n < 624) :
    readW (twistStep k w) (wIndex n) =
      if k = n then readW w (wIndex (k + 397)) ^^^ twistTerm (readW w (wIndex k)) (readW w (wIndex (k + 1)))
      else readW w (wIndex n) := by
  unfold twistStep
  rw [readW_writeW_index hk hn]; rfl

/-- The first `n` steps of the twist leave the words from `n` on as they were (R113: step `k` is the first to write
word `k`). -/
theorem twistLoop_read_later (w : Words) (n : Nat) (hn : n ≤ 624) {k : Nat} (h1 : n ≤ k) (h2 : k < 624) :
    readW (loop twistStep n w) (wIndex k) = readW w (wIndex k) := by
  induction n with
  | zero => rw [loop_zero]
  | succ n ih =>
    rw [loop_succ, twistStep_read n _ (by omega) h2, if_neg (by omega)]
    exact ih (by omega) (by omega)

/-- A word that the first `m` steps have written stays as it is in the later steps. -/
theorem twistLoop_read_earlier (w : Words) {m n : Nat} (hmn : m ≤ n) (hn : n ≤ 624) {k : Nat} (h : k < m) :
    readW (loop twistStep n w) (wIndex k) = readW (loop twistStep m w) (wIndex k) := by
  induction n with
  | zero => obtain rfl : m = 0 := by omega
            rfl
  | succ n ih =>
    by_cases e : m = n + 1
    · rw [e]
    · rw [loop_succ, twistStep_read n _ (by omega) (by omega), if_neg (by omega)]
      exact ih (by omega) (by omega)

/-- Word `k` after the twist is what step `k` wrote, from the buffer as the steps before it left it. -/
theorem twistWords_read (w : Words) {k : Nat} (hk : k < 624) :
    readW (twistWords w) (wIndex k) =
      readW (loop twistStep k w) (wIndex (k + 397)) ^^^
        twistTerm (readW w (wIndex k)) (readW (loop twistStep k w) (wIndex (k + 1))) := by
  unfold twistWords
  rw [twistLoop_read_earlier w (m := k + 1) (by omega) (Nat.le_refl _) (Nat.lt_succ_self k), loop_succ,
    twistStep_read k _ hk hk, if_pos rfl, twistLoop_read_later w k (by omega) (Nat.le_refl k) hk]

theorem prepare_of_lt {g : Gen} (h : g.idx.val < 624) : prepare g = g := by
  unfold prepare Config.idxPending
  rw [if_neg (by omega)]

theorem prepare_of_pending {g : Gen} (h : g.idx.val = 624) : prepare g = twist g := by
  unfold prepare Config.idxPending Config.idxUnseeded
  rw [if_pos (by omega), if_neg (by omega)]

theorem prepare_of_unseeded {g : Gen} (h : g.idx.val = 625) : prepare g = twist (autoseed g) := by
  unfold prepare Config.idxPending Config.idxUnseeded
  rw [if_pos (by omega), if_pos h]

@[simp] theorem twist_idx (g : Gen) : (twist g).idx = 0 := rfl
@[simp] theorem twist_words (g : Gen) : (twist g).words = twistWords g.words := rfl
@[simp] theorem seedGen_idx (s : Word) (g : Gen) : (seedGen s g).idx = 624 := rfl
@[simp] theorem seedGen_words (s : Word) (g : Gen) : (seedGen s g).words = seedWords s g.words := rfl
@[simp] theorem seedaGen_idx (key : List Word) (g : Gen) : (seedaGen key g).idx = 624 := rfl
@[simp] theorem seedaGen_words (key : List Word) (g : Gen) : (seedaGen key g).words = seedaWords key g.words := rfl

/-- At an extraction the index is from 0 to 623 (R115). -/
theorem prepare_idx_lt (g : Gen) : (prepare g).idx.val < 624 := by
  unfold prepare Config.idxPending
  split
  · show (0 : Fin 626).val < 624
    decide
  · omega

/-- A generation request leaves the index from 1 to 624, one more than the index it extracted at (R115). -/
theorem nextWord_idx (g : Gen) : (nextWord g).2.idx.val = (prepare g).idx.val + 1 := by
  have := prepare_idx_lt g
  simp only [nextWord, extract, Gen.setIdx_idx]
  exact idxOf_val_of_lt (by omega)

/-- EXTRACT and TEMPER never write the vector (R115, R117). -/
theorem nextWord_words (g : Gen) : (nextWord g).2.words = (prepare g).words := rfl

theorem nextWord_result (g : Gen) :
    (nextWord g).1 = temper (readW (prepare g).words (wIndex (prepare g).idx.val)) := rfl

end Sys2Proof.Machine
end

