-- ==== Sys2Proof/Laws/Exec.lean ====
section
/-! SUPPORT. What any command can do, said once. -/

namespace Sys2Proof.Machine

/-- The block's state after a command, and its response packet, as functions of the command and the block's state
alone (R12, R34). -/
def effect (i : Instr) (g : Gen) : Gen × List Word :=
  match i with
  | .seeds s => (seedGen s g, okPacket [])
  | .seeda key => (seedaGen key g, okPacket [])
  | .next32 => ((nextWord g).2, okPacket [(nextWord g).1])
  | .nextf64 => ((nextDouble g).2, okPacket [lowWord (nextDouble g).1, highWord (nextDouble g).1])
  | .getst => (g, okPacket g.words.toList)
  | .setst v => (g.setWords v, okPacket [])
  | .getidx => (g, okPacket [toWord g.idx.val])
  | .setidx idx =>
    match idxOperand idx with
    | some n => (g.setIdx n, okPacket [])
    | none => (g, errorPacket .invalidArgument)

/-- Every command answers a next state: the block's state and one response follow from the command and the block's
state, and nothing else changes. -/
theorem exec_eq (i : Instr) (s : State) :
    exec i s = .next { gen := (effect i s.gen).1, input := s.input, output := s.output ++ [(effect i s.gen).2] } := by
  cases i with
  | seeds seed => simp only [exec, execSeeds, effect, complete_eq]
  | seeda key => simp only [exec, execSeeda, effect, complete_eq]
  | next32 => simp only [exec, execNext32, effect, complete_eq]
  | nextf64 => simp only [exec, execNextf64, effect, complete_eq]
  | getst => simp only [exec, execGetst, effect, complete_eq]
  | setst v => simp only [exec, execSetst, effect, complete_eq]
  | getidx => simp only [exec, execGetidx, effect, complete_eq]
  | setidx idx =>
    simp only [exec, execSetidx, effect]
    cases idxOperand idx with
    | some n => exact complete_eq _ _ _
    | none => exact reject_eq _ _

theorem idxOperand_of_le {idx : Word} (h : idx.toNat ≤ 624) :
    idxOperand idx = some ⟨idx.toNat, by omega⟩ := by
  unfold idxOperand
  rw [dif_pos h]

theorem idxOperand_of_gt {idx : Word} (h : 624 < idx.toNat) : idxOperand idx = none := by
  unfold idxOperand
  rw [dif_neg (by omega)]

/-- An accepted operand of SETIDX is never 625 (R153). -/
theorem idxOperand_some {idx : Word} {n : Fin 626} (h : idxOperand idx = some n) :
    n.val = idx.toNat ∧ idx.toNat ≤ 624 := by
  unfold idxOperand at h
  split at h
  · next hle => cases h; exact ⟨rfl, hle⟩
  · cases h

end Sys2Proof.Machine
end

