-- ==== Sys2Proof/Laws/Mixing.lean ====
section
/-! SUPPORT. The mixing passes of SEEDA as one sequence of written words. Iteration `n` (from 1, both passes counted
together) writes position `1 + (n - 1) mod 623`; the word it finds there was written by iteration `n - 623`, and the
word before it by iteration `n - 1`, the wrap copy included. -/

namespace Sys2Proof.Machine

/-- The number of iterations of the first pass over a key (R93). -/
def firstPassLength (key : List Word) : Nat := max 624 key.length

/-- The state between the passes. -/
def afterFirstPass (key : List Word) (b : Words) : Mix := mix1 key b (firstPassLength key)

/-- The word that one iteration of the first pass writes (R94). -/
def mix1Value (key : List Word) (m : Mix) : Word :=
  (readW m.words (wIndex m.i) ^^^ (scr (readW m.words (wIndex (m.i - 1))) * MIX1_MULT)) + keyWord key m.j + toWord m.j

/-- The word that one iteration of the second pass writes (R95). -/
def mix2Value (m : Mix) : Word :=
  (readW m.words (wIndex m.i) ^^^ (scr (readW m.words (wIndex (m.i - 1))) * MIX2_MULT)) - toWord m.i

/-- The words written, in order; number 0 is the word 0 that the first iteration reads. -/
def mixSeq (key : List Word) (b : Words) : Nat → Word
  | 0 => readW b 0
  | n + 1 =>
    if n + 1 ≤ firstPassLength key then mix1Value key (mix1 key b n)
    else mix2Value (mix2 (afterFirstPass key b) (n - firstPassLength key))

theorem mixSeq_succ (key : List Word) (b : Words) (n : Nat) :
    mixSeq key b (n + 1) = if n + 1 ≤ firstPassLength key then mix1Value key (mix1 key b n)
      else mix2Value (mix2 (afterFirstPass key b) (n - firstPassLength key)) := by
  simp only [mixSeq]

/-- The state cursor after `n` iterations of the first pass. -/
theorem mix1_i (key : List Word) (b : Words) (n : Nat) : (mix1 key b n).i = 1 + n % 623 := by
  induction n with
  | zero => rw [mix1_zero]
  | succ n ih =>
    rw [mix1_succ]
    simp only [mix1Step, advanceJ_i, advanceI_i, ih]
    split_ifs <;> omega

/-- The state cursor after `n` iterations of the second pass: it carried over. -/
theorem mix2_i (key : List Word) (b : Words) (n : Nat) :
    (mix2 (afterFirstPass key b) n).i = 1 + (firstPassLength key + n) % 623 := by
  induction n with
  | zero => rw [mix2_zero]; exact mix1_i key b _
  | succ n ih =>
    rw [mix2_succ]
    simp only [mix2Step, advanceI_i, ih]
    split_ifs <;> omega

/-- The last of the first `n` iterations that wrote position `k`. -/
def lastWrite (n k : Nat) : Nat := n - (n - k) % 623

/-- What the vector holds after `n` iterations that wrote the words `x`, from the vector `b`. -/
def WrittenUpTo (b : Words) (x : Nat → Word) (n : Nat) (w : Words) : Prop :=
  (∀ k, 1 ≤ k → k ≤ 623 →
    readW w (wIndex k) = if k ≤ n then x (lastWrite n k) else readW b (wIndex k)) ∧
  readW w (wIndex 0) = if n < 623 then readW b (wIndex 0) else x (n - n % 623)

/-- One more iteration. -/
theorem writtenUpTo_step {b : Words} {x : Nat → Word} {n : Nat} {w : Words} (h : WrittenUpTo b x n w) (i j : Nat)
    (hi : i = 1 + n % 623) (v : Word) (hv : v = x (n + 1)) :
    WrittenUpTo b x (n + 1) (advanceI { words := writeW w (wIndex i) v, i := i, j := j }).words := by
  refine ⟨fun k h1 h2 => ?_, ?_⟩
  · rw [advanceI_write_read w i j v (by omega) (by omega) (by omega)]
    by_cases e : k = i
    · have el : lastWrite (n + 1) k = n + 1 := by unfold lastWrite; omega
      rw [if_pos e, if_pos (by omega), hv, el]
    · rw [if_neg e, if_neg (by omega), h.1 k h1 h2]
      by_cases hk : k ≤ n
      · have el : lastWrite n k = lastWrite (n + 1) k := by unfold lastWrite; omega
        rw [if_pos hk, if_pos (by omega), el]
      · rw [if_neg hk, if_neg (by omega)]
  · rw [advanceI_write_read w i j v (by omega) (by omega) (by omega), if_neg (by omega)]
    by_cases e : i = 623
    · have el : n + 1 = n + 1 - (n + 1) % 623 := by omega
      rw [if_pos ⟨rfl, e⟩, if_neg (by omega), hv, ← el]
    · rw [if_neg (by omega), h.2]
      by_cases hn : n < 623
      · rw [if_pos hn, if_pos (by omega)]
      · have el : n - n % 623 = n + 1 - (n + 1) % 623 := by omega
        rw [if_neg hn, if_neg (by omega), el]

/-- The word an iteration finds at its position. -/
theorem writtenUpTo_here {b : Words} {x : Nat → Word} {n : Nat} {w : Words} (h : WrittenUpTo b x n w) (i : Nat)
    (hi : i = 1 + n % 623) :
    readW w (wIndex i) = if n + 1 ≤ 623 then readW b (wIndex (n + 1)) else x (n + 1 - 623) := by
  rw [h.1 i (by omega) (by omega)]
  by_cases hn : n + 1 ≤ 623
  · have e : i = n + 1 := by omega
    rw [if_pos hn, if_neg (by omega), e]
  · have e : lastWrite n i = n + 1 - 623 := by unfold lastWrite; omega
    rw [if_neg hn, if_pos (by omega), e]

/-- The word an iteration finds before its position. -/
theorem writtenUpTo_before {b : Words} {x : Nat → Word} {n : Nat} {w : Words} (h : WrittenUpTo b x n w)
    (h0 : x 0 = readW b (wIndex 0)) (i : Nat) (hi : i = 1 + n % 623) : readW w (wIndex (i - 1)) = x n := by
  by_cases e : i = 1
  · subst e
    rw [h.2]
    by_cases hn : n < 623
    · have en : n = 0 := by omega
      rw [if_pos hn, en, h0]
    · have en : n - n % 623 = n := by omega
      rw [if_neg hn, en]
  · have el : lastWrite n (i - 1) = n := by unfold lastWrite; omega
    rw [h.1 (i - 1) (by omega) (by omega), if_pos (by omega), el]

theorem mixSeq_zero (key : List Word) (b : Words) : mixSeq key b 0 = readW b (wIndex 0) := by
  simp only [mixSeq]; rfl

/-- The vector in the first pass. -/
theorem mix1_written (key : List Word) (b : Words) (n : Nat) (hn : n ≤ firstPassLength key) :
    WrittenUpTo b (mixSeq key b) n (mix1 key b n).words := by
  induction n with
  | zero =>
    rw [mix1_zero]
    exact ⟨fun k h1 h2 => by rw [if_neg (by omega)], by rw [if_pos (by omega)]⟩
  | succ n ih =>
    have h := writtenUpTo_step (ih (by omega)) (mix1 key b n).i (mix1 key b n).j (mix1_i key b n)
      (mix1Value key (mix1 key b n)) (by rw [mixSeq_succ, if_pos hn])
    rw [mix1_succ]
    simp only [mix1Step, advanceJ_words]
    exact h

/-- The vector in the second pass. -/
theorem mix2_written (key : List Word) (b : Words) (n : Nat) :
    WrittenUpTo b (mixSeq key b) (firstPassLength key + n) (mix2 (afterFirstPass key b) n).words := by
  induction n with
  | zero => rw [mix2_zero]; exact mix1_written key b _ (Nat.le_refl _)
  | succ n ih =>
    have h := writtenUpTo_step ih (mix2 (afterFirstPass key b) n).i (mix2 (afterFirstPass key b) n).j
      (mix2_i key b n) (mix2Value (mix2 (afterFirstPass key b) n))
      (by rw [mixSeq_succ, if_neg (by omega), Nat.add_sub_cancel_left])
    rw [mix2_succ]
    exact h

/-- The word that iteration `n + 1` writes in the first pass, from the words written before it (R94). -/
theorem mixSeq_first (key : List Word) (b : Words) (n : Nat) (hn : n + 1 ≤ firstPassLength key) :
    mixSeq key b (n + 1) =
      ((if n + 1 ≤ 623 then readW b (wIndex (n + 1)) else mixSeq key b (n + 1 - 623)) ^^^
        (scr (mixSeq key b n) * MIX1_MULT)) + keyWord key (mix1 key b n).j + toWord (mix1 key b n).j := by
  have h := mix1_written key b n (by omega)
  rw [mixSeq_succ, if_pos hn, mix1Value, writtenUpTo_here h _ (mix1_i key b n),
    writtenUpTo_before h (mixSeq_zero key b) _ (mix1_i key b n)]

/-- The word that iteration `n + 1` writes in the second pass, `firstPassLength` iterations before it included
(R95). -/
theorem mixSeq_second (key : List Word) (b : Words) (n : Nat) (hn : firstPassLength key ≤ n) :
    mixSeq key b (n + 1) =
      (mixSeq key b (n + 1 - 623) ^^^ (scr (mixSeq key b n) * MIX2_MULT)) - toWord (1 + n % 623) := by
  obtain ⟨m, rfl⟩ : ∃ m, n = firstPassLength key + m := ⟨n - firstPassLength key, by omega⟩
  have h := mix2_written key b m
  have hl : 624 ≤ firstPassLength key := Nat.le_max_left _ _
  rw [mixSeq_succ, if_neg (by omega), Nat.add_sub_cancel_left, mix2Value,
    writtenUpTo_here h _ (mix2_i key b m), writtenUpTo_before h (mixSeq_zero key b) _ (mix2_i key b m), mix2_i,
    if_neg (by omega)]

/-- Array seeding leaves at each position from 1 to 623 the word that the last of its 623 second-pass iterations
wrote there. -/
theorem seedaWords_read (key : List Word) (w : Words) {k : Nat} (h1 : 1 ≤ k) (h2 : k ≤ 623) :
    readW (seedaWords key w) (wIndex k) =
      mixSeq key (seedWords ARRAY_BASE_SEED w) (lastWrite (firstPassLength key + 623) k) := by
  have h := (mix2_written key (seedWords ARRAY_BASE_SEED w) 623).1 k h1 h2
  have hl : 624 ≤ firstPassLength key := Nat.le_max_left _ _
  rw [if_pos (by omega)] at h
  unfold seedaWords MIX2_ITER
  simp only
  have hz : (0 : Fin 624) = wIndex 0 := rfl
  rw [hz, readW_writeW_index (by omega) (by omega), if_neg (by omega)]
  exact h

end Sys2Proof.Machine
end

