-- ==== Sys2Proof/Laws/PerInstr.lean ====
section
/-! SUPPORT. The family `PacketShape`: the packet of every command begins with a command word of the opcode map
and is as long as the decoder's length rule says (R61, R62). -/

namespace Sys2Proof.Laws.PacketShape

/-- The packet of a well-formed command is its command word, then its operand words, as many as R62 gives the
command word and operand word 1. -/
def Statement (i : Instr) : Prop :=
  i.wf = true → ∃ w ops, encode i = w :: ops ∧ decodeOp w ≠ none ∧
    packetLength w (ops.headD 0#32) = (encode i).length

theorem seeds (s : Word) : Statement (.seeds s) := fun _ => ⟨_, _, rfl, by decide, rfl⟩

theorem seeda (key : List Word) : Statement (.seeda key) := fun h => by
  refine ⟨_, _, rfl, by decide, ?_⟩
  have hk : key.length < 2 ^ 32 := by
    have h' : key.length ≤ 4294967295 := of_decide_eq_true h
    omega
  show 2 + (BitVec.ofNat 32 key.length).toNat = (encode (.seeda key)).length
  simp only [BitVec.toNat_ofNat, Nat.mod_eq_of_lt hk, encode, List.length_cons]
  omega

theorem next32 : Statement .next32 := fun _ => ⟨_, _, rfl, by decide, rfl⟩

theorem nextf64 : Statement .nextf64 := fun _ => ⟨_, _, rfl, by decide, rfl⟩

theorem getst : Statement .getst := fun _ => ⟨_, _, rfl, by decide, rfl⟩

theorem setst (v : Words) : Statement (.setst v) := fun _ => by
  refine ⟨_, _, rfl, by decide, ?_⟩
  show 625 = (encode (.setst v)).length
  simp [encode]

theorem getidx : Statement .getidx := fun _ => ⟨_, _, rfl, by decide, rfl⟩

theorem setidx (idx : Word) : Statement (.setidx idx) := fun _ => ⟨_, _, rfl, by decide, rfl⟩

end Sys2Proof.Laws.PacketShape
end

