-- ==== Sys2Proof/Laws/Port.lean ====
section
/-! SUPPORT. The laws of the opcode map, of the command stream and of a step. -/

namespace Sys2Proof

/-- No two rows of the opcode map select the same word. -/
theorem opTable_no_overlap :
    opTable.Pairwise (fun r q => ¬ ∃ w : Word, w &&& r.mask = r.pat ∧ w &&& q.mask = q.pat) := by
  have h : opTable.Pairwise (fun r q => r.mask = q.mask ∧ r.pat ≠ q.pat) := by decide
  refine h.imp ?_
  rintro r q ⟨hm, hp⟩ ⟨w, h1, h2⟩
  exact hp (by rw [← h1, ← h2, hm])

/-- The whole command word is fixed: the mask of every row keeps it as it is (R67). -/
theorem mask_keeps_word (w : Word) : w &&& 0xFFFFFFFF#32 = w := BitVec.and_allOnes

/-- A word is in the opcode map exactly when it is one of 1 to 8 (R67, R68). -/
theorem decodeOp_eq_none_iff (w : Word) : decodeOp w = none ↔ w.toNat = 0 ∨ 8 < w.toNat := by
  simp only [decodeOp, opTable, List.find?_eq_none, List.mem_cons, List.not_mem_nil, or_false, forall_eq_or_imp,
    forall_eq, mask_keeps_word, decide_eq_true_eq]
  constructor
  · rintro ⟨h1, h2, h3, h4, h5, h6, h7, h8⟩
    by_contra hc
    have : w.toNat = 1 ∨ w.toNat = 2 ∨ w.toNat = 3 ∨ w.toNat = 4 ∨ w.toNat = 5 ∨ w.toNat = 6 ∨ w.toNat = 7 ∨
        w.toNat = 8 := by omega
    rcases this with h | h | h | h | h | h | h | h
    · exact h1 (BitVec.eq_of_toNat_eq h)
    · exact h2 (BitVec.eq_of_toNat_eq h)
    · exact h3 (BitVec.eq_of_toNat_eq h)
    · exact h4 (BitVec.eq_of_toNat_eq h)
    · exact h5 (BitVec.eq_of_toNat_eq h)
    · exact h6 (BitVec.eq_of_toNat_eq h)
    · exact h7 (BitVec.eq_of_toNat_eq h)
    · exact h8 (BitVec.eq_of_toNat_eq h)
  · intro h
    refine ⟨?_, ?_, ?_, ?_, ?_, ?_, ?_, ?_⟩ <;> (rintro rfl; revert h; decide)

namespace Machine

@[simp] theorem leadingWords_nil : leadingWords [] = [] := rfl
@[simp] theorem leadingWords_reset (r : List HostInput) : leadingWords (.reset :: r) = [] := rfl
@[simp] theorem leadingWords_word (w : Word) (r : List HostInput) :
    leadingWords (.word w :: r) = w :: leadingWords r := rfl
@[simp] theorem afterWords_nil : afterWords [] = [] := rfl
@[simp] theorem afterWords_reset (r : List HostInput) : afterWords (.reset :: r) = .reset :: r := rfl
@[simp] theorem afterWords_word (w : Word) (r : List HostInput) : afterWords (.word w :: r) = afterWords r := rfl

/-- The words presented next, from words and what follows them. -/
theorem leadingWords_append (ws : List Word) (r : List HostInput) :
    leadingWords (wordInputs ws ++ r) = ws ++ leadingWords r := by
  induction ws with
  | nil => rfl
  | cons w ws ih => exact congrArg (w :: ·) ih

theorem afterWords_append (ws : List Word) (r : List HostInput) :
    afterWords (wordInputs ws ++ r) = afterWords r := by
  induction ws with
  | nil => rfl
  | cons w ws ih => exact ih

/-- The stream is the words presented next and what follows them. -/
theorem wordInputs_leading_after (r : List HostInput) : wordInputs (leadingWords r) ++ afterWords r = r := by
  induction r with
  | nil => rfl
  | cons x r ih =>
    cases x with
    | word w => exact congrArg (HostInput.word w :: ·) ih
    | reset => rfl

/-- What is fetched when the words presented next are not none: what they decode to. -/
theorem fetch_of_words {r : List HostInput} (h : leadingWords r ≠ []) :
    fetch r = match decode (leadingWords r) with
      | .command i rest => .command i (wordInputs rest ++ afterWords r)
      | .illegal _ rest => .illegal (wordInputs rest ++ afterWords r)
      | .incomplete => if afterWords r = [] then .waiting else .cutPacket := by
  cases r with
  | nil => exact absurd rfl h
  | cons x r =>
    cases x with
    | reset => exact absurd rfl h
    | word w =>
      simp only [fetch]
      cases decode (leadingWords (.word w :: r)) <;> try rfl
      cases afterWords (.word w :: r) <;> rfl

end Machine

end Sys2Proof
end

