-- ==== Sys2Proof/Laws/Run.lean ====
section
/-! SUPPORT. Running the machine, one step at a time. -/

namespace Sys2Proof.Machine

theorem run_zero (s : State) : Host.Core.run core 0 s = .next s := rfl

/-- For any machine: a run that begins with a step that answers a next state goes on from that state. -/
theorem core_run_succ (M : Host.Core) {s t : M.State} (n : Nat) (h : M.step s = .next t) :
    Host.Core.run M (n + 1) s = Host.Core.run M n t := by
  simp only [Host.Core.run, h]

/-- A run of this machine, one step at a time. -/
theorem run_succ_of_next {s t : State} (n : Nat) (h : step s = .next t) :
    Host.Core.run core (n + 1) s = Host.Core.run core n t := core_run_succ core n h

end Sys2Proof.Machine
end

