-- ==== Sys2Proof/Laws/Step.lean ====
section
/-! SUPPORT. What a step can do, said once. -/

namespace Sys2Proof

/-- A selected row is a row of the map, and the command word is the row's own. -/
theorem decodeOp_some {w : Word} {r : OpRow} (h : decodeOp w = some r) : r ∈ opTable ∧ w = r.pat := by
  have h1 := List.mem_of_find?_eq_some h
  have hm : ∀ q ∈ opTable, q.mask = 0xFFFFFFFF#32 := by decide
  have h2 := List.find?_some h
  exact ⟨h1, by simpa [hm r h1, mask_keeps_word] using h2⟩

namespace Machine

/-- What follows the words presented next is nothing or begins with a reset event. -/
theorem afterWords_cases (r : List HostInput) : afterWords r = [] ∨ ∃ t, afterWords r = .reset :: t := by
  induction r with
  | nil => exact .inl rfl
  | cons x r ih =>
    cases x with
    | word w => exact ih
    | reset => exact .inr ⟨r, rfl⟩

/-- The five things a step can be. -/
inductive StepCase (s : State) : Host.Outcome State Fault Refusal → Prop
  /-- Nothing, or only part of a packet, is presented. -/
  | wait : StepCase s (.next s)
  /-- The reset event. -/
  | reset (rest : List HostInput) : s.input = .reset :: rest →
      StepCase s (.next { gen := Gen.reset, input := rest, output := s.output })
  /-- A command whose packet is presented. -/
  | command (i : Instr) (left : List Word) : decode (leadingWords s.input) = .command i left →
      StepCase s (.next { gen := (effect i s.gen).1, input := wordInputs left ++ afterWords s.input,
                          output := s.output ++ [(effect i s.gen).2] })
  /-- An illegal command word. -/
  | illegal (w : Word) (left : List Word) : decode (leadingWords s.input) = .illegal w left →
      StepCase s (.next { gen := s.gen, input := wordInputs left ++ afterWords s.input,
                          output := s.output ++ [[statusWord .illegalCommand]] })
  /-- A packet cut by a reset event. -/
  | cut (rest : List HostInput) : decode (leadingWords s.input) = .incomplete → leadingWords s.input ≠ [] →
      afterWords s.input = .reset :: rest → StepCase s (.refused .resetInsidePacket)

theorem step_cases (s : State) : StepCase s (step s) := by
  unfold step
  match h : s.input with
  | [] => exact .wait
  | .reset :: rest => exact .reset rest h
  | .word w :: rest =>
    have hne : leadingWords s.input ≠ [] := by rw [h]; simp
    rw [← h, fetch_of_words hne]
    cases hd : decode (leadingWords s.input) with
    | command i left => simp only [exec_eq]; exact .command i left hd
    | illegal v left => exact .illegal v left hd
    | incomplete =>
      simp only
      rcases afterWords_cases s.input with ha | ⟨t, ha⟩
      · rw [if_pos ha]; exact .wait
      · rw [if_neg (by rw [ha]; simp)]; exact .cut t hd hne ha

end Machine

end Sys2Proof
end

