-- ==== Sys2Proof/Tests/Slice0.lean ====
section
/-! SUPPORT. The model's own tests: the smoke test of `wf`, one written-out packet per command and its decoding,
small tests of each meaning with the expected values of `95_test_vectors.md`, and a witness for the hypotheses of
each obligation that has some. -/

namespace Sys2Proof.Tests

open Sys2Proof.Machine Sys2Proof.Safety

/-- A block whose words are all `w`, with the index `n`, and nothing presented or answered. -/
def stateAt (w : Word) (n : Fin 626) : State :=
  { gen := { words := Vector.replicate 624 w, idx := n }, input := [], output := [] }

/-- The responses of an outcome that is a next state. -/
def responses : Host.Outcome State Fault Refusal → List (List Word)
  | .next s => s.output
  | .fault _ => []
  | .refused _ => []

/-- The index of an outcome that is a next state; 626, which is no index, for the others. -/
def indexAfter : Host.Outcome State Fault Refusal → Nat
  | .next s => s.gen.idx.val
  | .fault _ => 626
  | .refused _ => 626

/-! ## Syntax: the one check of `wf` (R62) -/

theorem test_wf_refuses_key_of_2_32_words : (Instr.seeda (List.replicate 4294967296 0#32)).wf = false := by
  simp only [Instr.wf, List.length_replicate, Config.maxKeyLength]; decide

theorem test_wf_accepts_longest_key : (Instr.seeda (List.replicate 4294967295 0#32)).wf = true := by
  simp only [Instr.wf, List.length_replicate, Config.maxKeyLength]; decide

/-! ## Decoding: words written out from R61, R62, R67, and the packets of `95_test_vectors.md` 4.3 -/

theorem test_decode_seeds : decode [0b00000000000000000000000000000001#32, 0x00001571#32] =
    .command (.seeds 5489#32) [] := by decide

theorem test_decode_seeda : decode [0b00000000000000000000000000000010#32, 0x00000004#32, 0x00000123#32,
    0x00000234#32, 0x00000345#32, 0x00000456#32] =
    .command (.seeda [0x123#32, 0x234#32, 0x345#32, 0x456#32]) [] := by decide

theorem test_decode_seeda_empty_key : decode [0x00000002#32, 0x00000000#32, 0x00000003#32] =
    .command (.seeda []) [0x00000003#32] := by decide

theorem test_decode_next32 : decode [0b00000000000000000000000000000011#32] = .command .next32 [] := by decide

theorem test_decode_nextf64 : decode [0b00000000000000000000000000000100#32] = .command .nextf64 [] := by decide

theorem test_decode_getst : decode [0b00000000000000000000000000000101#32] = .command .getst [] := by decide

theorem decode_setst_of_words (l : List Word) (v : Words) (hl : l.length = 624)
    (h : ∀ n, (h1 : n < l.length) → (h2 : n < 624) → l[n] = v[n]) :
    decode (0b00000000000000000000000000000110#32 :: l) = .command (.setst v) [] := by
  have ho : decodeOp 0b00000000000000000000000000000110#32 =
      some { mask := 0xFFFFFFFF#32, pat := 0x00000006#32, op := .setst, format := .v } := by decide
  simp only [decode, ho, decodeOperands, hl, Nat.le_refl, dif_pos, wordsOfList,
    List.take_of_length_le (Nat.le_of_eq hl), List.drop_of_length_le (Nat.le_of_eq hl)]
  congr 2
  apply Vector.ext
  intro n hn
  exact h n (by omega) hn

/-- Operand word `n + 1` is `n`, and becomes `W[n]`. -/
theorem test_decode_setst :
    decode (0b00000000000000000000000000000110#32 :: (List.range 624).map (BitVec.ofNat 32)) =
      .command (.setst (Vector.ofFn fun n : Fin 624 => BitVec.ofNat 32 n.val)) [] :=
  decode_setst_of_words _ _ (by simp) fun n h1 h2 => by simp

theorem test_decode_getidx : decode [0b00000000000000000000000000000111#32] = .command .getidx [] := by decide

theorem test_decode_setidx : decode [0b00000000000000000000000000001000#32, 0x000002BC#32] =
    .command (.setidx 700#32) [] := by decide

theorem test_decode_illegal_words :
    [0x00000000#32, 0x00000009#32, 0x000000FF#32, 0x00000103#32, 0x80000001#32, 0xFFFFFFFF#32].map
      (fun w => decode [w, 0x00000003#32]) =
    [0x00000000#32, 0x00000009#32, 0x000000FF#32, 0x00000103#32, 0x80000001#32, 0xFFFFFFFF#32].map
      (fun w => Decoded.illegal w [0x00000003#32]) := by decide

theorem test_decode_unfinished_packet : decode [0x00000002#32, 0x00000002#32, 0x00000001#32] = .incomplete := by
  decide

theorem test_decodeTableWord_seeda : decodeTableWord 64 0x0000000200000002 = some (.seeda [0#32, 0#32]) := by decide

theorem test_decodeTableWord_zero : decodeTableWord 32 0 = none := by decide

/-! ## Seeding: `95_test_vectors.md` 2.1, 1.1 -/

theorem test_seeds_ffffffff_word_1 (g : Gen) : readW (seedGen 0xFFFFFFFF#32 g).words (wIndex 1) = 0x4FE1DA6D#32 := by
  rw [seedGen_words, seedWords_read _ _ (by omega)]; decide +kernel

theorem test_seeds_5489_word_623 (g : Gen) : readW (seedGen 5489#32 g).words (wIndex 623) = 0x04C46D8C#32 := by
  rw [seedGen_words, seedWords_read _ _ (by omega)]; decide +kernel

/-- The first iteration of the first mixing pass of `SEEDA [12345]`, worked in section 1.1. -/
theorem test_seeda_12345_first_iteration :
    ((0x82D2AB13#32 ^^^ (scr 0x012BD6AA#32 * MIX1_MULT)) + keyWord [12345#32] 0 + toWord 0) = 0xFF8939EA#32 := by
  decide

/-- `v` computed before it is used: the kernel evaluates a number that is matched on. -/
def force {α : Type} (v : Word) (f : Word → α) : α :=
  match v.toNat with
  | 0 => f 0#32
  | n + 1 => f (BitVec.ofNat 32 (n + 1))

theorem force_eq {α : Type} (v : Word) (f : Word → α) : force v f = f v := by
  unfold force
  split
  · next h => exact congrArg f (BitVec.eq_of_toNat_eq h.symm)
  · next n h => exact congrArg f (BitVec.eq_of_toNat_eq (by simp only [BitVec.toNat_ofNat]; omega))

/-- A sequence written out, each word from the one before it and from a word of an older list. -/
def scan (f : Nat → Word → Word → Word) (n : Nat) (before : Word) : List Word → List Word
  | [] => []
  | old :: rest => force (f n before old) fun v => v :: scan f (n + 1) v rest

theorem scan_eq (f : Nat → Word → Word → Word) (x o : Nat → Word) (n len : Nat)
    (h : ∀ k, n ≤ k → k < n + len → x (k + 1) = f k (x k) (o k)) :
    scan f n (x n) ((List.range' n len).map o) = (List.range' (n + 1) len).map x := by
  induction len generalizing n with
  | zero => rfl
  | succ len ih =>
    simp only [List.range'_succ, List.map_cons, scan, force_eq]
    rw [← h n (Nat.le_refl n) (by omega), ih (n + 1) fun k h1 h2 => h k (by omega) (by omega)]

/-- Iteration `n + 1` of the mixing passes over the key `[12345]`. -/
def mixStep12345 (n : Nat) (before old : Word) : Word :=
  if n < 624 then (old ^^^ (scr before * MIX1_MULT)) + 12345#32
  else (old ^^^ (scr before * MIX2_MULT)) - toWord (1 + n % 623)

/-- The words of `SEEDS 19650218` and then the words of the two mixing passes, evaluated in order. -/
def baseList : List Word := scan (fun n before _ => SEED_MULT * scr before + toWord (n + 1)) 0 ARRAY_BASE_SEED
  ((List.range' 0 623).map fun _ => 0#32)

def mixList1 : List Word := scan mixStep12345 0 ARRAY_BASE_SEED baseList
def mixList2 : List Word := scan mixStep12345 623 (mixList1.getLastD 0#32) mixList1
def mixList3 : List Word := scan mixStep12345 1246 (mixList2.getLastD 0#32) (mixList2.take 1)

theorem baseList_eq : baseList = (List.range' 1 623).map (seedWordAt ARRAY_BASE_SEED) :=
  scan_eq _ (seedWordAt ARRAY_BASE_SEED) (fun _ => 0#32) 0 623 fun _ _ _ => rfl

theorem mixSeq_12345 (w : Words) (n : Nat) (hn : n ≤ 1246) :
    mixSeq [12345#32] (seedWords ARRAY_BASE_SEED w) (n + 1) =
      mixStep12345 n (mixSeq [12345#32] (seedWords ARRAY_BASE_SEED w) n)
        (if n + 1 ≤ 623 then seedWordAt ARRAY_BASE_SEED (n + 1)
         else mixSeq [12345#32] (seedWords ARRAY_BASE_SEED w) (n + 1 - 623)) := by
  have hl : firstPassLength [12345#32] = 624 := rfl
  unfold mixStep12345
  by_cases h : n < 624
  · have hj : (mix1 [12345#32] (seedWords ARRAY_BASE_SEED w) n).j = 0 := by
      have hb := (mix1_cursors_bounded [12345#32] (seedWords ARRAY_BASE_SEED w) n).2.2
      simp only [List.length_cons, List.length_nil] at hb
      omega
    rw [if_pos h, mixSeq_first _ _ _ (by omega), hj]
    have hk : ∀ v : Word, v + keyWord [12345#32] 0 + toWord 0 = v + 12345#32 := fun v => BitVec.add_zero _
    rw [hk]
    by_cases h2 : n + 1 ≤ 623
    · rw [if_pos h2, if_pos h2, seedWords_read _ _ (by omega)]
    · rw [if_neg h2, if_neg h2]
  · rw [if_neg h, mixSeq_second _ _ _ (by omega), if_neg (by omega)]

theorem mixLists_eq (w : Words) :
    mixList1 = (List.range' 1 623).map (mixSeq [12345#32] (seedWords ARRAY_BASE_SEED w)) ∧
    mixList2 = (List.range' 624 623).map (mixSeq [12345#32] (seedWords ARRAY_BASE_SEED w)) ∧
    mixList3 = (List.range' 1247 1).map (mixSeq [12345#32] (seedWords ARRAY_BASE_SEED w)) := by
  have h0 : mixSeq [12345#32] (seedWords ARRAY_BASE_SEED w) 0 = ARRAY_BASE_SEED := by
    rw [mixSeq_zero, seedWords_read _ _ (by omega)]; rfl
  have shift : ∀ (x : Nat → Word) (a b len : Nat), (List.range' a len).map x =
      (List.range' b len).map (fun k => x (k + a - b)) := by
    intro x a b len
    apply List.ext_getElem (by simp)
    intro i h1 h2
    simp only [List.getElem_map, List.getElem_range']
    congr 1; omega
  have last : ∀ (x : Nat → Word) (a len : Nat), ((List.range' a (len + 1)).map x).getLastD 0#32 = x (a + len) := by
    intro x a len
    rw [List.getLastD_eq_getLast?, List.getLast?_eq_getElem?]
    simp
  have e1 : mixList1 = (List.range' 1 623).map (mixSeq [12345#32] (seedWords ARRAY_BASE_SEED w)) := by
    have hs := scan_eq mixStep12345 (mixSeq [12345#32] (seedWords ARRAY_BASE_SEED w))
      (fun k => seedWordAt ARRAY_BASE_SEED (k + 1 - 0)) 0 623 fun k _ hk => by
        rw [mixSeq_12345 w k (by omega), if_pos (by omega), Nat.sub_zero]
    rw [h0] at hs
    unfold mixList1
    rw [baseList_eq, shift (seedWordAt ARRAY_BASE_SEED) 1 0]
    exact hs
  have e2 : mixList2 = (List.range' 624 623).map (mixSeq [12345#32] (seedWords ARRAY_BASE_SEED w)) := by
    unfold mixList2
    rw [e1, last _ 1 622, shift (mixSeq [12345#32] (seedWords ARRAY_BASE_SEED w)) 1 623 623]
    refine scan_eq _ _ _ 623 623 fun k h1 hk => ?_
    rw [mixSeq_12345 w k (by omega), if_neg (by omega)]
  refine ⟨e1, e2, ?_⟩
  unfold mixList3
  have e3 : mixList2.take 1 = (List.range' 1246 1).map fun k => mixSeq [12345#32] (seedWords ARRAY_BASE_SEED w) (k + 1 - 623) := by
    rw [e2]; rfl
  rw [e3, e2, last _ 624 622]
  refine scan_eq _ _ _ 1246 1 fun k h1 hk => ?_
  rw [mixSeq_12345 w k (by omega), if_neg (by omega)]

/-- Word `n` of the two passes, read off the evaluated lists. -/
theorem mixSeq_12345_at (w : Words) (n : Nat) (h1 : 624 ≤ n) (h2 : n ≤ 1246) :
    mixSeq [12345#32] (seedWords ARRAY_BASE_SEED w) n = mixList2.getD (n - 624) 0#32 := by
  rw [(mixLists_eq w).2.1]
  rw [List.getD_eq_getElem?_getD, List.getElem?_map, List.getElem?_range' (by omega)]
  have e : 624 + 1 * (n - 624) = n := by omega
  rw [e]; rfl

theorem mixList_values :
    [mixList2.getD 1 0#32, mixList2.getD 396 0#32, mixList2.getD 397 0#32, mixList2.getD 622 0#32,
      mixList3.getD 0 0#32] =
    [0x654C2709#32, 0xD89B9183#32, 0xBFFF02B1#32, 0x0E374B4F#32, 0x7D7AA379#32] := by
  decide +kernel

/-- The state after `SEEDA [12345]`, from any state: words 1, 2, 397, 398 and 623 of section 1.1. -/
theorem test_seeda_12345_words (w : Words) :
    [1, 2, 397, 398, 623].map (fun k => readW (seedaWords [12345#32] w) (wIndex k)) =
      [0x7D7AA379#32, 0x654C2709#32, 0xD89B9183#32, 0xBFFF02B1#32, 0x0E374B4F#32] := by
  have hv := mixList_values
  simp only [List.cons.injEq, and_true] at hv
  have hl : firstPassLength [12345#32] = 624 := rfl
  have h1 : mixSeq [12345#32] (seedWords ARRAY_BASE_SEED w) 1247 = mixList3.getD 0 0#32 := by
    rw [(mixLists_eq w).2.2]; rfl
  simp only [List.map_cons, List.map_nil, seedaWords_read _ _ (show 1 ≤ 1 by omega) (show 1 ≤ 623 by omega),
    seedaWords_read _ _ (show 1 ≤ 2 by omega) (show 2 ≤ 623 by omega),
    seedaWords_read _ _ (show 1 ≤ 397 by omega) (show 397 ≤ 623 by omega),
    seedaWords_read _ _ (show 1 ≤ 398 by omega) (show 398 ≤ 623 by omega),
    seedaWords_read _ _ (show 1 ≤ 623 by omega) (show 623 ≤ 623 by omega), hl, lastWrite,
    Nat.reduceAdd, Nat.reduceSub, Nat.reduceMod]
  rw [h1, mixSeq_12345_at w 625 (by omega) (by omega), mixSeq_12345_at w 1020 (by omega) (by omega),
    mixSeq_12345_at w 1021 (by omega) (by omega), mixSeq_12345_at w 1246 (by omega) (by omega)]
  simp only [Nat.reduceSub, hv]

/-! ## Generation: `95_test_vectors.md` 1.1, 2.3, 2.4, 2.5, 3.1 -/

theorem twistWords_read_low (w : Words) {k : Nat} (hk : k ≤ 226) :
    readW (twistWords w) (wIndex k) = readW w (wIndex (k + 397)) ^^^
      twistTerm (readW w (wIndex k)) (readW w (wIndex (k + 1))) := by
  rw [twistWords_read w (by omega), twistLoop_read_later w k (by omega) (by omega) (by omega),
    twistLoop_read_later w k (by omega) (by omega) (by omega)]

/-- The first word of the default sequence. -/
theorem test_next32_from_reset : responses (exec .next32 State.reset) = [[0#32, 3499211612#32]] := by
  have h : readW (twistWords (seedWords DEFAULT_SEED Gen.reset.words)) (wIndex 0) = 0x9B0AFA27#32 := by
    rw [twistWords_read_low _ (by omega), seedWords_read _ _ (by omega), seedWords_read _ _ (by omega),
      seedWords_read _ _ (by omega)]
    decide +kernel
  rw [exec_eq]
  simp only [effect, nextWord_result, prepare_of_unseeded (show Gen.reset.idx.val = 625 from rfl), responses,
    State.reset, twist_idx, twist_words, autoseed, seedGen_words, List.nil_append, okPacket, statusWord]
  have hz : wIndex (0 : Fin 626).val = wIndex 0 := rfl
  rw [hz, h]
  decide

/-- The in-place twist: word 227 reads the new word 0 (section 2.4; a copy twist gives 0xC8EE17F1). -/
theorem test_twist_5489_word_227 (w : Words) :
    readW (twistWords (seedWords DEFAULT_SEED w)) (wIndex 227) = 0x53E4F8A7#32 := by
  have h0 : readW (loop twistStep 227 (seedWords DEFAULT_SEED w)) (wIndex (227 + 397)) =
      readW (twistWords (seedWords DEFAULT_SEED w)) (wIndex 0) := by
    rw [show wIndex (227 + 397) = wIndex 0 from rfl]
    exact (twistLoop_read_earlier _ (by omega) (Nat.le_refl 624) (by omega)).symm
  rw [twistWords_read _ (by omega), h0, twistLoop_read_later _ 227 (by omega) (by omega) (by omega),
    twistWords_read_low _ (by omega), seedWords_read _ _ (by omega), seedWords_read _ _ (by omega),
    seedWords_read _ _ (by omega), seedWords_read _ _ (by omega), seedWords_read _ _ (by omega)]
  decide +kernel

theorem test_temper_0x12345678 : temper 0x12345678#32 = 0x2B7E4A2D#32 := by decide

/-- The first two words of a freshly seeded block, from its words 0, 1, 2, 397 and 398. -/
theorem first_two_words (g : Gen) (h : g.idx.val = 624) :
    (nextWord g).1 = temper (readW g.words (wIndex 397) ^^^
      twistTerm (readW g.words (wIndex 0)) (readW g.words (wIndex 1))) ∧
    (nextWord (nextWord g).2).1 = temper (readW g.words (wIndex 398) ^^^
      twistTerm (readW g.words (wIndex 1)) (readW g.words (wIndex 2))) := by
  have hp : prepare g = twist g := prepare_of_pending h
  have i0 : (prepare g).idx.val = 0 := congrArg (fun g => g.idx.val) hp
  have i1 : (nextWord g).2.idx.val = 1 := by rw [nextWord_idx, i0]
  refine ⟨?_, ?_⟩
  · rw [nextWord_result, i0, hp, twist_words, twistWords_read_low _ (by omega)]
  · rw [nextWord_result, prepare_of_lt (by omega), i1, nextWord_words, hp, twist_words,
      twistWords_read_low _ (by omega)]

/-- The response of NEXTF64 to a freshly seeded block with the words 0, 1, 2, 397 and 398 of section 1.1. -/
theorem double_of_reference_words (g : Gen) (h : g.idx.val = 624) (w0 : readW g.words (wIndex 0) = ARRAY_W0)
    (w1 : readW g.words (wIndex 1) = 0x7D7AA379#32) (w2 : readW g.words (wIndex 2) = 0x654C2709#32)
    (w397 : readW g.words (wIndex 397) = 0xD89B9183#32) (w398 : readW g.words (wIndex 398) = 0xBFFF02B1#32) :
    (effect .nextf64 g).2 = [0#32, 0x65DC8A18#32, 0x3FDAA9E6#32] := by
  obtain ⟨r1, r2⟩ := first_two_words g h
  rw [w0, w1, w397] at r1
  rw [w1, w2, w398] at r2
  simp only [effect, nextDouble, r1, r2]
  decide

theorem responses_pair (i j : Instr) (s : State) : responses (execAll [i, j] s) =
    s.output ++ [(effect i s.gen).2, (effect j (effect i s.gen).1).2] := by
  simp only [execAll, exec_eq, responses, List.append_assoc, List.cons_append, List.nil_append]

/-- The source's reference vector: `SEEDA [12345]`, then NEXTF64 (sections 1.1 and 3.2). -/
theorem test_nextf64_reference_vector (s : State) :
    responses (execAll [.seeda [12345#32], .nextf64] s) =
      s.output ++ [[0#32], [0#32, 0x65DC8A18#32, 0x3FDAA9E6#32]] := by
  have hw := test_seeda_12345_words s.gen.words
  simp only [List.map_cons, List.map_nil, List.cons.injEq, and_true] at hw
  obtain ⟨w1, w2, w397, w398, -⟩ := hw
  have hd : (effect .nextf64 (effect (.seeda [12345#32]) s.gen).1).2 = [0#32, 0x65DC8A18#32, 0x3FDAA9E6#32] :=
    double_of_reference_words (seedaGen [12345#32] s.gen) (congrArg Fin.val (seedaGen_idx _ _))
      (seedaWords_read_zero _ _) w1 w2 w397 w398
  rw [responses_pair, hd]
  rfl

theorem test_f64conv_smallest : f64conv 0x00000000#32 0x00000040#32 = 0x3CA0000000000000#64 := by decide

theorem test_f64conv_largest : f64conv 0xFFFFFFFF#32 0xFFFFFFFF#32 = 0x3FEFFFFFFFFFFFFF#64 := by decide

/-! ## State access: `95_test_vectors.md` 4.1, 4.2 -/

theorem test_getst_reset : responses (exec .getst State.reset) = [0#32 :: List.replicate 624 0#32] := by
  decide +kernel

theorem test_setst_keeps_never_seeded : indexAfter (exec (.setst (Vector.replicate 624 1#32)) State.reset) = 625 := by
  decide

theorem test_getidx_reset : responses (exec .getidx State.reset) = [[0#32, 0x00000271#32]] := by decide

theorem test_setidx_624_accepted : responses (exec (.setidx 624#32) (stateAt 1#32 3)) = [[0#32]] ∧
    indexAfter (exec (.setidx 624#32) (stateAt 1#32 3)) = 624 := by decide

theorem test_setidx_625_rejected : responses (exec (.setidx 625#32) State.reset) = [[1#32]] ∧
    indexAfter (exec (.setidx 1024#32) (stateAt 1#32 624)) = 624 := by decide

/-! ## Steps: `95_test_vectors.md` 4.3, programs P1 and P5 -/

theorem test_step_illegal_word :
    step { stateAt 1#32 4 with input := wordInputs [0x00000103#32, 0x00000000#32] } =
      .next { stateAt 1#32 4 with input := wordInputs [0x00000000#32], output := [[2#32]] } := by rfl

theorem test_step_takes_the_placed_word : responses (step (State.reset.withFetchWord 32 7)) = [[0#32, 625#32]] := by
  decide

theorem test_step_idle : step State.reset = .next State.reset := by rfl

theorem test_step_reset_inside_packet :
    step { State.reset with input := [.word 0x00000001#32, .reset] } = .refused .resetInsidePacket := by rfl

/-- The comment, the directive and the two number notations of R71 (program P3 and P5 lines). -/
theorem test_assemble : assemble ("SETIDX 0x2BC ; status 1\n.REPEAT 2 NEXT32\n\nSEEDA [1, 2]".toList) =
    some (wordInputs [8#32, 700#32, 3#32, 3#32, 2#32, 2#32, 1#32, 2#32]) := by decide +kernel

/-- Bytes 0 to 3 make word 0, the first byte the least significant (R43). -/
theorem test_wordsOfBytes : wordsOfBytes [0x5C#8, 0xBB#8, 0x91#8, 0xD0#8, 0x01#8, 0#8, 0#8, 0#8] =
    [0xD091BB5C#32, 1#32] := by decide

theorem test_fillBytes_cuts_last_word :
    fillBytes 6 [0xD091BB5C#32, 0x22AE9EF6#32] = [0x5C#8, 0xBB#8, 0x91#8, 0xD0#8, 0xF6#8, 0x9E#8] := by decide

/-! ## Witnesses: the hypotheses of the obligations can be met -/

theorem witness_ResetEventFromAnyState :
    ({ stateAt 7#32 3 with input := [.reset, .word 3#32] } : State).input = .reset :: [.word 3#32] := rfl

theorem witness_NewaLeavesWhatSeedaLeaves : (Instr.seeda [5#32]).wf = true ∧
    ({ stateAt 7#32 3 with input := newaInputs [5#32] ++ [.word 3#32] } : State).input =
      newaInputs [5#32] ++ [.word 3#32] := ⟨by decide, rfl⟩

theorem witness_ScrambleFoldsTwoTopBits : 2 ≤ 2 ∧ 2 ≤ 31 ∧ 2 ≤ 31 ∧ 31 ≤ 31 := by decide

theorem witness_Next32ByIndex : (stateAt 7#32 0).gen.idx.val = 0 ∧ (stateAt 7#32 623).gen.idx.val = 623 ∧
    (stateAt 7#32 624).gen.idx.val = 624 ∧ (stateAt 7#32 625).gen.idx.val = 625 := by decide

theorem witness_AutoseedIsTheDefaultSeed : (stateAt 7#32 625).gen.idx.val = 625 ∧
    ∃ t, exec (.seeds 5489#32) (stateAt 7#32 625) = .next t := ⟨by decide, _, exec_eq _ _⟩

theorem witness_TwistPositionsAfterSeeding : (stateAt 7#32 624).gen.idx.val = 624 ∧ 1 ≤ 1 ∧ 1 ≤ 625 := by decide

theorem readW_replicate (w : Word) (i : Fin 624) : readW (Vector.replicate 624 w) i = w := by
  simp [readW]

theorem witness_AllZeroVectorIsAFixedPoint : (∀ i, readW (stateAt 0#32 0).gen.words i = 0#32) ∧
    (stateAt 0#32 0).gen.idx.val ≤ 624 ∧ (∀ i, readW (stateAt 0#32 624).gen.words i = 0#32) ∧
    (stateAt 0#32 624).gen.idx.val ≤ 624 ∧ (∃ t, exec (.seeds 0#32) (stateAt 0#32 0) = .next t) ∧
    ∃ t, exec (.seeda []) (stateAt 0#32 0) = .next t :=
  ⟨readW_replicate 0#32, by decide, readW_replicate 0#32, by decide, ⟨_, exec_eq _ _⟩, _, exec_eq _ _⟩

theorem witness_TwistIgnoresLowBitsOfWordZero :
    (∀ i, i ≠ 0 → readW (writeW (Vector.replicate 624 0#32) 0 0x7FFFFFFF#32) i =
      readW (Vector.replicate 624 0#32) i) ∧
    (readW (writeW (Vector.replicate 624 0#32) 0 0x7FFFFFFF#32) 0).getLsbD 31 =
      (readW (Vector.replicate 624 0#32) 0).getLsbD 31 ∧
    (readW (writeW (Vector.replicate 624 0#32) 0 0x7FFFFFFF#32) 0).getLsbD 31 = false := by
  refine ⟨fun i hi => readW_writeW_ne _ _ (Ne.symm hi), ?_, ?_⟩
  · rw [readW_writeW_same, readW_replicate]; decide
  · rw [readW_writeW_same]; decide

theorem witness_NextF64IsTwoWordsInOrder : (stateAt 7#32 622).gen.idx.val ≤ 622 ∧
    (stateAt 7#32 623).gen.idx.val = 623 ∧ 624 ≤ (stateAt 7#32 624).gen.idx.val ∧
    624 ≤ (stateAt 7#32 625).gen.idx.val := by decide

theorem witness_F64PatternDenotesTheExactValue : f64Mantissa 0x1F#32 0x3F#32 = 0 ∧ f64Mantissa 0#32 0x40#32 ≠ 0 ∧
    f64Mantissa 0xFFFFFFFF#32 0xFFFFFFFF#32 ≠ 0 := by decide

theorem witness_F64ResultsAreTheKeptBits : 0 < 9007199254740992 ∧ 9007199254740991 < 9007199254740992 := by decide

theorem witness_GetstAnswersTheWholeVector : 0 < 624 ∧ 623 < 624 := by decide

theorem witness_SetidxChecksItsOperand : (0#32).toNat ≤ 624 ∧ (624#32).toNat ≤ 624 ∧ 624 < (625#32).toNat ∧
    624 < (0xFFFFFFFF#32).toNat := by decide

theorem witness_SnapshotRestoresTheBlock : (stateAt 7#32 624).gen.idx.val ≤ 624 ∧
    exec .getst (stateAt 7#32 624) = .next { gen := (stateAt 7#32 624).gen, input := [],
                                             output := [0#32 :: (stateAt 7#32 624).gen.words.toList] } ∧
    exec .getidx (stateAt 7#32 624) =
      .next { gen := (stateAt 7#32 624).gen, input := [], output := [[0#32, 624#32]] } :=
  ⟨by decide, exec_eq _ _, exec_eq _ _⟩

theorem witness_LoadingWordsIsNotSeeding : (stateAt 0xFFFFFFFF#32 625).gen.idx.val = 625 ∧
    ({ State.reset with input := [.reset], output := [[0#32]] } : State).gen = State.reset.gen ∧
    (Instr.next32 = .next32 ∨ Instr.next32 = .nextf64) ∧ (Instr.nextf64 = .next32 ∨ Instr.nextf64 = .nextf64) :=
  ⟨by decide, rfl, .inl rfl, .inr rfl⟩

theorem witness_IndexBelow624AfterSeedingSkipsTheTwist : 0 < 624 ∧ 623 < 624 := by decide

theorem witness_IllegalWordIsAnsweredAndForgotten :
    ({ stateAt 7#32 3 with input := wordInputs [0#32] } : State).input = .word 0#32 :: [] ∧ (0#32).toNat = 0 ∧
    ({ stateAt 7#32 3 with input := wordInputs [9#32] } : State).input = .word 9#32 :: [] ∧ 8 < (9#32).toNat :=
  ⟨rfl, rfl, rfl, by decide⟩

theorem witness_InvalidArgumentFromSetidxOnly : ∃ t, exec (.setidx 625#32) (stateAt 7#32 3) = .next t :=
  ⟨_, exec_eq _ _⟩

theorem witness_ErrorsLeaveNoTrace :
    step { stateAt 7#32 3 with input := wordInputs [8#32, 700#32] } = .next { stateAt 7#32 3 with output := [[1#32]] } ∧
    step { stateAt 7#32 3 with input := wordInputs [255#32] } = .next { stateAt 7#32 3 with output := [[2#32]] } ∧
    1#32 ≠ 0#32 ∧ 2#32 ≠ 0#32 := ⟨rfl, rfl, by decide, by decide⟩

theorem witness_StepKeepsResponsesLegal : ResponsesLegal State.reset ∧ step State.reset = .next State.reset :=
  ⟨fun _ hp => by simp [State.reset] at hp, rfl⟩

theorem witness_NeverSeededOnlyFromReset : step State.reset = .next State.reset ∧ State.reset.gen.idx.val = 625 ∧
    (step { stateAt 7#32 3 with input := [.reset] } = .next State.reset) ∧
    exec (.setidx 625#32) State.reset = .next { State.reset with output := [[1#32]] } := ⟨rfl, rfl, rfl, rfl⟩

theorem witness_StepRunsTheDecodedCommand :
    decode (leadingWords (wordInputs [8#32, 624#32, 3#32])) = .command (.setidx 624#32) [3#32] := by decide

theorem witness_UnfinishedPacketChangesNothing : (Instr.setidx 5#32).wf = true ∧
    0 < (encode (.setidx 5#32)).length ∧ 1 < (encode (.setidx 5#32)).length ∧
    ({ stateAt 7#32 3 with input := [] } : State).input = wordInputs ((encode (.setidx 5#32)).take 0) ∧
    ({ stateAt 7#32 3 with input := wordInputs [8#32] } : State).input =
      wordInputs ((encode (.setidx 5#32)).take 1) := ⟨rfl, by decide, by decide, rfl, rfl⟩

theorem witness_CommandListRunsInOrder : (∀ i ∈ [Instr.getidx, Instr.setidx 3#32], i.wf = true) ∧
    ({ stateAt 7#32 3 with input := wordInputs [7#32, 8#32, 3#32] } : State).input =
      [Instr.getidx, Instr.setidx 3#32].flatMap packetInputs ++ [] := ⟨by decide, rfl⟩

theorem witness_EqualBlocksBehaveAlike :
    (stateAt 7#32 3).gen = ({ stateAt 7#32 3 with input := [.reset], output := [[0#32]] } : State).gen := rfl

theorem witness_DecodeInvertsEncode : (Instr.seeda [1#32, 2#32]).wf = true := by decide

theorem witness_EncodeInvertsDecode : decode [2#32, 1#32, 5#32, 3#32] = .command (.seeda [5#32]) [3#32] := by decide

theorem witness_ByteViewsOfWordsAreLittleEndian : 0 < 4 ∧ 3 < 4 ∧ ([1#32, 2#32] : List Word).length = (5 + 3) / 4 ∧
    0 < 5 ∧ 4 < 5 ∧ ([] : List Word).length = (0 + 3) / 4 ∧
    (Vector.replicate 2496 0#8).toList = (List.replicate 624 0#32).flatMap bytesOfWord :=
  ⟨by decide, by decide, by decide, by decide, by decide, by decide, by decide +kernel⟩

end Sys2Proof.Tests
end

/-! PROOFS. The family `10_state.md`: the block's reset state (R23, R26), the never-seeded index (R27), and the
block's behaviour as a function of its own state (R34). -/

namespace Sys2Proof.Machine

open Sys2Proof.Safety

/-! ## The reset state -/

@[simp] theorem readW_reset (i : Fin 624) : readW Gen.reset.words i = 0x00000000#32 := by
  simp [readW, Gen.reset]

/-- Settles O1: the vector of `Gen.reset` is the constant vector 0, and its index is 625 by definition. -/
theorem resetBlockIsEmptyAndUnseeded : Obligations.ResetBlockIsEmptyAndUnseeded := by
  unfold Obligations.ResetBlockIsEmptyAndUnseeded
  exact ⟨rfl, readW_reset⟩

/-! ## The never-seeded index -/

/-- A generation request never leaves the index 625 (R110, R115). -/
theorem nextWord_idx_le (g : Gen) : (nextWord g).2.idx.val ≤ 624 := by
  have := prepare_idx_lt g
  rw [nextWord_idx]
  omega

/-- The second draw of a double is itself a generation request (R140). -/
theorem nextDouble_idx_le (g : Gen) : (nextDouble g).2.idx.val ≤ 624 := nextWord_idx_le _

/-- The commands that write no index: the three other accesses, and a rejected SETIDX. No other command can leave
the index 625, and these leave it as it was (R27). -/
theorem effect_unseeded {i : Instr} {g : Gen} (h : (effect i g).1.idx.val = 625) :
    g.idx.val = 625 ∧
      (i = .getst ∨ i = .getidx ∨ (∃ v, i = .setst v) ∨ ∃ idx, i = .setidx idx ∧ 624 < idx.toNat) := by
  cases i with
  | seeds seed => exact absurd (show 624 = 625 from h) (by decide)
  | seeda key => exact absurd (show 624 = 625 from h) (by decide)
  | next32 => exact absurd h (Nat.ne_of_lt (Nat.lt_succ_of_le (nextWord_idx_le g)))
  | nextf64 => exact absurd h (Nat.ne_of_lt (Nat.lt_succ_of_le (nextDouble_idx_le g)))
  | getst => exact ⟨h, by simp⟩
  | setst v => exact ⟨h, by simp⟩
  | getidx => exact ⟨h, by simp⟩
  | setidx idx =>
    by_cases hle : idx.toNat ≤ 624
    · simp only [effect, idxOperand_of_le hle, Gen.setIdx_idx] at h
      omega
    · simp only [effect, idxOperand_of_gt (not_le.mp hle)] at h
      exact ⟨h, by simpa using hle⟩

/-- The next state of a command is the one `effect` names. -/
theorem eq_of_exec_next {i : Instr} {s t : State} (h : exec i s = .next t) :
    t = { gen := (effect i s.gen).1, input := s.input, output := s.output ++ [(effect i s.gen).2] } := by
  rw [exec_eq] at h
  exact (Host.Outcome.next.inj h).symm

/-- After a step the index is 625 only if it was 625 before it or the step took a reset event (R27, R191). -/
theorem step_unseeded {s t : State} (h : step s = .next t) (ht : t.gen.idx.val = 625) :
    s.gen.idx.val = 625 ∨ s.input.head? = some .reset := by
  have hc := step_cases s
  rw [h] at hc
  cases hc with
  | wait => exact .inl ht
  | reset rest hin => exact .inr (by rw [hin]; rfl)
  | command i left hd => exact .inl (effect_unseeded ht).1
  | illegal w left hd => exact .inl ht

/-- Settles O35: the first clause by the cases of a step, the second by the cases of a command's effect. -/
theorem neverSeededOnlyFromReset : Obligations.NeverSeededOnlyFromReset := by
  unfold Obligations.NeverSeededOnlyFromReset
  refine ⟨fun s t => step_unseeded, fun i s t h ht => ?_⟩
  rw [eq_of_exec_next h] at ht
  obtain ⟨hs, rfl | rfl | ⟨v, rfl⟩ | ⟨idx, rfl, hgt⟩⟩ := effect_unseeded ht
  · simp [hs]
  · simp [hs]
  · simp [hs]
  · simp [hs, hgt]

/-! ## The block's behaviour as a function of its own state -/

/-- The block's state after a list of commands, and the responses they give, as functions of the commands and the
block's state alone (R12, R34). -/
def effectAll : List Instr → Gen → Gen × List (List Word)
  | [], g => (g, [])
  | i :: is, g => ((effectAll is (effect i g).1).1, (effect i g).2 :: (effectAll is (effect i g).1).2)

/-- Every command gives one response (R63). -/
theorem effectAll_length (is : List Instr) (g : Gen) : (effectAll is g).2.length = is.length := by
  induction is generalizing g with
  | nil => rfl
  | cons i is ih => simp [effectAll, ih]

/-- A list of commands completes from every state, with the block and the responses of `effectAll` and nothing else
changed. -/
theorem execAll_eq (is : List Instr) (s : State) :
    execAll is s = .next { gen := (effectAll is s.gen).1, input := s.input,
                           output := s.output ++ (effectAll is s.gen).2 } := by
  induction is generalizing s with
  | nil => simp [execAll, effectAll]
  | cons i is ih => simp [execAll, effectAll, exec_eq, ih]

/-- Settles O40: `effectAll` of the common block is the witness for both states. -/
theorem equalBlocksBehaveAlike : Obligations.EqualBlocksBehaveAlike := by
  unfold Obligations.EqualBlocksBehaveAlike
  intro is s t h
  refine ⟨_, _, effectAll_length is s.gen, execAll_eq is s, ?_⟩
  rw [h]
  exact execAll_eq is t

end Sys2Proof.Machine

/-! PROOFS. The family `20_memory.md`: taking commands from the stream one after another (R49, R60 to R62, R205),
and the byte views of words on the host's side (R43, R73). -/

namespace Sys2Proof

/-! ## Packets in the command stream -/

@[simp] theorem wordsOfList_toList (v : Words) (h : v.toList.length = 624) : wordsOfList v.toList h = v := rfl

/-- The operand words of SETST, whatever follows them (R65). -/
theorem decode_setst (v : Words) (rest : List Word) :
    decode (encode (.setst v) ++ rest) = .command (.setst v) rest := by
  have hlen : v.toList.length = 624 := v.length_toList
  have htake : (v.toList ++ rest).take 624 = v.toList := List.take_left' hlen
  have hdrop : (v.toList ++ rest).drop 624 = rest := List.drop_left' hlen
  show decodeOperands .setst (v.toList ++ rest) = _
  simp [decodeOperands, htake, hdrop]

/-- The length word and the key words of SEEDA, whatever follows them (R62). -/
theorem decode_seeda {key : List Word} (h : (Instr.seeda key).wf = true) (rest : List Word) :
    decode (encode (.seeda key) ++ rest) = .command (.seeda key) rest := by
  have hle : key.length ≤ 4294967295 := of_decide_eq_true h
  have hlen : (BitVec.ofNat 32 key.length).toNat = key.length := by
    rw [BitVec.toNat_ofNat, Nat.mod_eq_of_lt (by omega)]
  show decodeOperands .seeda (BitVec.ofNat 32 key.length :: (key ++ rest)) = _
  simp [decodeOperands, hlen]

/-- The packet of a well-formed command decodes to it and leaves what follows (R61, R62). -/
theorem decode_encode_append {i : Instr} (h : i.wf = true) (rest : List Word) :
    decode (encode i ++ rest) = .command i rest := by
  cases i with
  | seeda key => exact decode_seeda h rest
  | setst v => exact decode_setst v rest
  | seeds _ | next32 | nextf64 | getst | getidx | setidx _ => rfl

namespace Machine

open Sys2Proof.Safety

/-- A stream whose leading words decode to a command is fetched as that command; what is left of the stream follows
its packet. -/
theorem fetch_of_decode {r : List HostInput} {i : Instr} {rest : List Word}
    (h : decode (leadingWords r) = .command i rest) :
    fetch r = .command i (wordInputs rest ++ afterWords r) := by
  have hne : leadingWords r ≠ [] := by
    intro h0
    rw [h0] at h
    cases h
  rw [fetch_of_words hne, h]

/-- Settles O37: the step carries out what is fetched, and a decoded command is what is fetched. -/
theorem stepRunsTheDecodedCommand : Obligations.StepRunsTheDecodedCommand := by
  unfold Obligations.StepRunsTheDecodedCommand
  intro s i rest h
  rw [step, fetch_of_decode h]

/-- A step on a stream that begins with the packet of a command takes exactly that packet (R49). -/
theorem step_packet {i : Instr} {s : State} {r : List HostInput} (hwf : i.wf = true)
    (h : s.input = packetInputs i ++ r) : step s = exec i (s.setInput r) := by
  have hd : decode (leadingWords s.input) = .command i (leadingWords r) := by
    rw [h, packetInputs, leadingWords_append, decode_encode_append hwf]
  rw [stepRunsTheDecodedCommand s i _ hd, h, packetInputs, afterWords_append, wordInputs_leading_after]

/-- Settles O39, by induction on the list: the first step is the first command, which leaves the packets of the
others. -/
theorem commandListRunsInOrder : Obligations.CommandListRunsInOrder := by
  unfold Obligations.CommandListRunsInOrder
  intro is
  induction is with
  | nil =>
    intro s rest _ h
    obtain rfl : s.input = rest := h
    rfl
  | cons i is ih =>
    intro s rest hwf h
    obtain ⟨hi, his⟩ := List.forall_mem_cons.mp hwf
    rw [List.flatMap_cons, List.append_assoc] at h
    have hstep := step_packet hi h
    rw [exec_eq] at hstep
    rw [List.length_cons, run_succ_of_next _ hstep, ih _ rest his rfl, execAll, exec_eq]
    rfl

/-! ## Byte views of words -/

theorem byteOfWord_toNat (w : Word) (n : Nat) : (byteOfWord w n).toNat = w.toNat / 256 ^ n % 256 := by
  rw [byteOfWord, BitVec.extractLsb'_toNat, Nat.shiftRight_eq_div_pow, Nat.pow_mul]

@[simp] theorem bytesOfWord_length (w : Word) : (bytesOfWord w).length = 4 := rfl

theorem bytesOfWord_getElem? (w : Word) {n : Nat} (h : n < 4) : (bytesOfWord w)[n]? = some (byteOfWord w n) := by
  match n, h with
  | 0, _ | 1, _ | 2, _ | 3, _ => rfl

/-- A word is its four bytes, the first the least significant (R43). -/
@[simp] theorem wordOfBytes_byteOfWord (w : Word) :
    wordOfBytes (byteOfWord w 0) (byteOfWord w 1) (byteOfWord w 2) (byteOfWord w 3) = w := by
  show w.extractLsb' 24 8 ++ w.extractLsb' 16 8 ++ w.extractLsb' 8 8 ++ w.extractLsb' 0 8 = w
  rw [BitVec.extractLsb'_append_extractLsb'_eq_extractLsb' (by rfl),
    BitVec.extractLsb'_append_extractLsb'_eq_extractLsb' (by rfl),
    BitVec.extractLsb'_append_extractLsb'_eq_extractLsb' (by rfl)]
  exact BitVec.extractLsb'_eq_self

/-- Reading a buffer of words' bytes as words undoes writing them (R43). -/
theorem wordsOfBytes_bytesOfWords (ws : List Word) : wordsOfBytes (ws.flatMap bytesOfWord) = ws := by
  induction ws with
  | nil => rfl
  | cons w ws ih =>
    show wordOfBytes _ _ _ _ :: wordsOfBytes (ws.flatMap bytesOfWord) = w :: ws
    rw [ih, wordOfBytes_byteOfWord]

@[simp] theorem bytesOfWords_length (ws : List Word) : (ws.flatMap bytesOfWord).length = 4 * ws.length := by
  simp [List.length_flatMap, Nat.mul_comm]

/-- Byte `k` of a buffer of words is byte `k mod 4` of word `k / 4` (R43). -/
theorem bytesOfWords_getElem? (ws : List Word) (k : Nat) :
    (ws.flatMap bytesOfWord)[k]? = ws[k / 4]?.map (byteOfWord · (k % 4)) := by
  induction ws generalizing k with
  | nil => rfl
  | cons w ws ih =>
    rw [List.flatMap_cons]
    by_cases hk : k < 4
    · rw [List.getElem?_append_left hk, bytesOfWord_getElem? w hk, Nat.div_eq_of_lt hk, Nat.mod_eq_of_lt hk]
      rfl
    · have hdiv : k / 4 = (k - 4) / 4 + 1 := by omega
      have hmod : k % 4 = (k - 4) % 4 := by omega
      rw [List.getElem?_append_right (not_lt.mp hk), bytesOfWord_length, ih, hdiv, hmod, List.getElem?_cons_succ]

/-- FILL presents its NEXT32 commands and nothing else (R73 (b)). -/
theorem fillInputs_eq (n : Nat) : fillInputs n = List.replicate ((n + 3) / 4) (.word 0x00000003#32) :=
  List.flatten_replicate_singleton

theorem fillBytes_length {n : Nat} {results : List Word} (h : results.length = (n + 3) / 4) :
    (fillBytes n results).length = n := by
  rw [fillBytes, List.length_take, bytesOfWords_length]
  omega

/-- The byte that FILL writes at each place below its count (R73 (b)). -/
theorem fillBytes_getElem? (results : List Word) {k n : Nat} (h : k < n) :
    (fillBytes n results)[k]? = results[k / 4]?.map (byteOfWord · (k % 4)) := by
  rw [fillBytes, List.getElem?_take_of_lt h, bytesOfWords_getElem?]

/-- Each byte that FILL writes comes from a word that was drawn for it (R73 (b)). -/
theorem fillBytes_from_result {n k : Nat} {results : List Word} (h : results.length = (n + 3) / 4) (hk : k < n) :
    ∃ w, results[k / 4]? = some w ∧ (fillBytes n results)[k]? = some (byteOfWord w (k % 4)) := by
  have hlt : k / 4 < results.length := by omega
  refine ⟨results[k / 4], List.getElem?_eq_getElem hlt, ?_⟩
  rw [fillBytes_getElem? results hk, List.getElem?_eq_getElem hlt]
  rfl

/-- 2496 bytes that are the bytes of a word list hold 624 words, and SEEDBYTES presents NEWA with them (R73 (c)). -/
theorem seedBytesInputs_eq {b : Vector Byte 2496} {ws : List Word} (h : b.toList = ws.flatMap bytesOfWord) :
    ws.length = 624 ∧ seedBytesInputs b = newaInputs ws := by
  have hlen : 2496 = 4 * ws.length := by rw [← bytesOfWords_length, ← h, Vector.length_toList]
  refine ⟨by omega, ?_⟩
  rw [seedBytesInputs, h, wordsOfBytes_bytesOfWords]

/-- NEXT64 has its first word in the low half (R73 (a)). -/
theorem next64Value_toNat (r1 r2 : Word) : (next64Value r1 r2).toNat = r2.toNat * 4294967296 + r1.toNat := by
  rw [next64Value, BitVec.toNat_append, ← Nat.shiftLeft_add_eq_or_of_lt r1.isLt, Nat.shiftLeft_eq]

/-- Settles O44, clause by clause from the laws above. -/
theorem byteViewsOfWordsAreLittleEndian : Obligations.ByteViewsOfWordsAreLittleEndian := by
  unfold Obligations.ByteViewsOfWordsAreLittleEndian
  exact ⟨fun w n _ => byteOfWord_toNat w n,
    fun w => ⟨bytesOfWord_length w, fun n => bytesOfWord_getElem? w⟩,
    wordsOfBytes_bytesOfWords,
    fillInputs_eq,
    fun n results h => ⟨fillBytes_length h, fun k => fillBytes_from_result h⟩,
    fun b ws => seedBytesInputs_eq,
    rfl,
    next64Value_toNat⟩

end Machine

end Sys2Proof

/-! PROOFS. The family `30_encoding.md`: packets and their decoding (R61, R62, R65, R67, R70), the one response of a
command (R63, R64), and NEWA (R72, R100). -/

namespace Sys2Proof

/-! ## Packets and their decoding -/

/-- Settles O41: `decode_encode_append`, the law that taking packets from the stream rests on. -/
theorem decodeInvertsEncode : Obligations.DecodeInvertsEncode := by
  unfold Obligations.DecodeInvertsEncode
  exact fun i rest h => decode_encode_append h rest

/-- The command word of an operation code (R67). -/
def commandWord : Opcode → Word
  | .seeds => 0x00000001#32
  | .seeda => 0x00000002#32
  | .next32 => 0x00000003#32
  | .nextf64 => 0x00000004#32
  | .getst => 0x00000005#32
  | .setst => 0x00000006#32
  | .getidx => 0x00000007#32
  | .setidx => 0x00000008#32

/-- One word alone selects each operation (R61, R67). -/
theorem eq_commandWord_of_decodeOp {w : Word} {r : OpRow} (h : decodeOp w = some r) : w = commandWord r.op := by
  have hpat : ∀ q ∈ opTable, q.pat = commandWord q.op := by decide
  obtain ⟨hmem, hw⟩ := decodeOp_some h
  rw [hw, hpat r hmem]

@[simp] theorem toList_wordsOfList (ws : List Word) (h : ws.length = 624) : (wordsOfList ws h).toList = ws := rfl

/-- Operand words that complete a command are, behind its command word, its packet and what is left (R62, R65). -/
theorem packet_of_decodeOperands {op : Opcode} {ws : List Word} {i : Instr} {rest : List Word}
    (h : decodeOperands op ws = .command i rest) : commandWord op :: ws = encode i ++ rest ∧ i.wf = true := by
  cases op with
  | next32 | nextf64 | getst | getidx => cases h; exact ⟨rfl, rfl⟩
  | seeds | setidx =>
    cases ws with
    | nil => cases h
    | cons x ws => cases h; exact ⟨rfl, rfl⟩
  | seeda =>
    cases ws with
    | nil => cases h
    | cons len ws =>
      simp only [decodeOperands] at h
      split at h
      · next hle =>
        cases h
        have hlen : (ws.take len.toNat).length = len.toNat := List.length_take_of_le hle
        have hmax : len.toNat ≤ Config.maxKeyLength := Nat.le_of_lt_succ len.isLt
        simp [encode, commandWord, Instr.wf, hlen, hmax]
      · cases h
  | setst =>
    simp only [decodeOperands] at h
    split at h
    · cases h
      simp [encode, commandWord, Instr.wf]
    · cases h

/-- Operand words never make a command word illegal: decoding it reads nothing but that word (R61). -/
theorem decodeOperands_ne_illegal (op : Opcode) (ws : List Word) (w : Word) (rest : List Word) :
    decodeOperands op ws ≠ .illegal w rest := by
  cases op with
  | next32 | nextf64 | getst | getidx => nofun
  | seeds | setidx => cases ws <;> nofun
  | seeda =>
    cases ws with
    | nil => nofun
    | cons len ws => simp only [decodeOperands]; split <;> nofun
  | setst => simp only [decodeOperands]; split <;> nofun

/-- A word outside the opcode map is illegal, whatever follows it (R68). -/
theorem decode_cons_of_none {w : Word} (h : decodeOp w = none) (ws : List Word) :
    decode (w :: ws) = .illegal w ws := by
  simp only [decode, h]

/-- A word of the opcode map has its operand words read (R61, R62). -/
theorem decode_cons_of_some {w : Word} {r : OpRow} (h : decodeOp w = some r) (ws : List Word) :
    decode (w :: ws) = decodeOperands r.op ws := by
  simp only [decode, h]

/-- What an illegal front of the stream is: one word outside the opcode map (R68). -/
theorem eq_cons_of_decode_illegal {ws : List Word} {w : Word} {rest : List Word}
    (h : decode ws = .illegal w rest) : ws = w :: rest ∧ decodeOp w = none := by
  cases ws with
  | nil => cases h
  | cons v ws =>
    cases hop : decodeOp v with
    | none =>
      rw [decode_cons_of_none hop] at h
      cases h
      exact ⟨rfl, hop⟩
    | some r =>
      rw [decode_cons_of_some hop] at h
      exact absurd h (decodeOperands_ne_illegal _ _ _ _)

/-- Settles O42: the word that selects a row is that row's command word, and the operand words are the packet's. -/
theorem encodeInvertsDecode : Obligations.EncodeInvertsDecode := by
  unfold Obligations.EncodeInvertsDecode
  intro ws i rest h
  cases ws with
  | nil => cases h
  | cons w ws =>
    cases hop : decodeOp w with
    | none => rw [decode_cons_of_none hop] at h; cases h
    | some r =>
      rw [decode_cons_of_some hop] at h
      rw [eq_commandWord_of_decodeOp hop]
      exact packet_of_decodeOperands h

/-- What decodes to a command still does with more words after it (R61). -/
theorem decode_append_of_command {ws : List Word} {i : Instr} {rest : List Word}
    (h : decode ws = .command i rest) (more : List Word) : decode (ws ++ more) = .command i (rest ++ more) := by
  obtain ⟨rfl, hwf⟩ := encodeInvertsDecode ws i rest h
  rw [List.append_assoc, decode_encode_append hwf]

/-- What decodes to an illegal word still does with more words after it (R61, R68). -/
theorem decode_append_of_illegal {ws : List Word} {w : Word} {rest : List Word}
    (h : decode ws = .illegal w rest) (more : List Word) : decode (ws ++ more) = .illegal w (rest ++ more) := by
  obtain ⟨rfl, hop⟩ := eq_cons_of_decode_illegal h
  exact decode_cons_of_none hop (rest ++ more)

/-- The first words of a packet alone are no packet: were they one, the words after it would be left over when the whole
packet is decoded (R70). -/
theorem decode_take_encode {i : Instr} {k : Nat} (hwf : i.wf = true) (hk : k < (encode i).length) :
    decode ((encode i).take k) = .incomplete := by
  have hne : (encode i).drop k ≠ [] := List.drop_eq_nil_iff.not.mpr (Nat.not_le.mpr hk)
  have hwhole : decode ((encode i).take k ++ (encode i).drop k) = .command i [] := by
    rw [List.take_append_drop]
    simpa using decode_encode_append hwf []
  cases hd : decode ((encode i).take k) with
  | incomplete => rfl
  | command j rest =>
    rw [decode_append_of_command hd, Decoded.command.injEq] at hwhole
    exact absurd (List.append_eq_nil_iff.mp hwhole.2).2 hne
  | illegal w rest =>
    rw [decode_append_of_illegal hd] at hwhole
    cases hwhole

/-- Settles O43: the decoder evaluated on the written-out words. -/
theorem specWordsDecode : Obligations.SpecWordsDecode := by
  unfold Obligations.SpecWordsDecode
  decide

namespace Machine

open Sys2Proof.Safety

/-- Words that are no complete packet, with nothing after them, make the port wait (R70, log entry 3). -/
theorem step_of_incomplete {s : State} {ws : List Word} (hin : s.input = wordInputs ws)
    (h : decode ws = .incomplete) : step s = .next s := by
  have hl : leadingWords s.input = ws := by simpa [hin] using leadingWords_append ws []
  have ha : afterWords s.input = [] := by simpa [hin] using afterWords_append ws []
  cases ws with
  | nil =>
    have hnil : s.input = [] := hin
    rw [step, hnil]
    rfl
  | cons w ws =>
    have hne : leadingWords s.input ≠ [] := by rw [hl]; exact List.cons_ne_nil w ws
    rw [step, fetch_of_words hne, hl, h, ha]
    rfl

/-- Settles O38: the first words of a packet alone are incomplete, and the port waits. -/
theorem unfinishedPacketChangesNothing : Obligations.UnfinishedPacketChangesNothing := by
  unfold Obligations.UnfinishedPacketChangesNothing
  exact fun i s k hwf hk hin => step_of_incomplete hin (decode_take_encode hwf hk)

/-! ## The response of a command -/

/-- The response to each command, by its length and its status (R63, R64, R171). -/
theorem effect_response (i : Instr) (g : Gen) :
    ((effect i g).2.head? = some 0#32 ∧ (effect i g).2.length = 1 + resultCount i) ∨
      ((effect i g).2 = [1#32] ∧ ∃ idx, i = .setidx idx ∧ 624 < idx.toNat) := by
  cases i with
  | seeds _ | seeda _ | next32 | nextf64 | setst _ | getidx => exact .inl ⟨rfl, rfl⟩
  | getst => exact .inl ⟨rfl, by simp [effect, okPacket, resultCount]⟩
  | setidx idx =>
    by_cases hle : idx.toNat ≤ 624
    · simp only [effect, idxOperand_of_le hle]
      exact .inl ⟨rfl, rfl⟩
    · have hgt : 624 < idx.toNat := Nat.not_le.mp hle
      simp only [effect, idxOperand_of_gt hgt]
      exact .inr ⟨rfl, idx, rfl, hgt⟩

/-- Settles O32: the next state of a command adds the response that `effect` names, and keeps the stream. -/
theorem oneResponsePerCommand : Obligations.OneResponsePerCommand := by
  unfold Obligations.OneResponsePerCommand
  exact fun i s => ⟨_, _, exec_eq i s, rfl, rfl, effect_response i s.gen⟩

theorem resultCount_cases (i : Instr) :
    resultCount i = 0 ∨ resultCount i = 1 ∨ resultCount i = 2 ∨ resultCount i = 624 := by
  cases i <;> simp [resultCount]

/-- Every command answers with a legal response (R63, R64). -/
theorem effect_legal (i : Instr) (g : Gen) : LegalResponse (effect i g).2 := by
  obtain ⟨hhead, hlen⟩ | ⟨herr, -⟩ := effect_response i g
  · have hcount := resultCount_cases i
    exact .inr (.inr ⟨hhead, by omega⟩)
  · exact .inl herr

/-- One more legal response keeps the record legal. -/
theorem legal_append {output : List (List Word)} {p : List Word} (h : ∀ q ∈ output, LegalResponse q)
    (hp : LegalResponse p) : ∀ q ∈ output ++ [p], LegalResponse q :=
  List.forall_mem_append.mpr ⟨h, List.forall_mem_singleton.mpr hp⟩

/-- Settles O33: no response is given at reset. -/
theorem responsesLegalAtReset : Obligations.ResponsesLegalAtReset := by
  unfold Obligations.ResponsesLegalAtReset
  exact List.forall_mem_nil _

/-- Settles O34, by the cases of a step: a command and an illegal word add one legal response each, the others
none. -/
theorem stepKeepsResponsesLegal : Obligations.StepKeepsResponsesLegal := by
  unfold Obligations.StepKeepsResponsesLegal
  intro s t hs h
  have hc := step_cases s
  rw [h] at hc
  cases hc with
  | wait => exact hs
  | reset rest _ => exact hs
  | command i left _ => exact legal_append hs (effect_legal i s.gen)
  | illegal w left _ => exact legal_append hs (.inr (.inl rfl))

/-! ## NEWA -/

/-- A reset event at the front of the stream is taken alone and leaves the reset block (R190, R191). -/
theorem step_reset {s : State} {r : List HostInput} (h : s.input = .reset :: r) :
    step s = .next { gen := Gen.reset, input := r, output := s.output } := by
  rw [step, h]
  rfl

/-- SEEDA leaves the same machine whatever the block before it (R98). -/
theorem exec_seeda_setGen (key : List Word) (s : State) (g : Gen) :
    exec (.seeda key) (s.setGen g) = exec (.seeda key) s := by
  simp only [exec_eq, effect, seedaGen_indep key (s.setGen g).gen s.gen, State.setGen_input, State.setGen_output]

/-- Settles O3: the reset is the first step, SEEDA the second, and SEEDA discards the block that the reset left. -/
theorem newaLeavesWhatSeedaLeaves : Obligations.NewaLeavesWhatSeedaLeaves := by
  unfold Obligations.NewaLeavesWhatSeedaLeaves
  intro key s rest hwf hin
  have hreset : step s = .next ((s.setInput (packetInputs (.seeda key) ++ rest)).setGen Gen.reset) := step_reset hin
  have hseeda : step ((s.setInput (packetInputs (.seeda key) ++ rest)).setGen Gen.reset) =
      exec (.seeda key) (s.setInput rest) :=
    (step_packet hwf rfl).trans (exec_seeda_setGen key (s.setInput rest) Gen.reset)
  have hnext := exec_eq (.seeda key) (s.setInput rest)
  refine ⟨_, ?_, hnext⟩
  rw [run_succ_of_next 1 hreset, run_succ_of_next 0 (hseeda.trans hnext), run_zero]

end Machine

end Sys2Proof

/-! PROOFS. The family `40_seeding.md`: the scramble (R90), scalar seeding (R91), array seeding and its mixing passes
(R93 to R97, R99), and that seeding discards the old state (R98). -/

namespace Sys2Proof.Machine

open Sys2Proof.Safety

/-! ## The scramble -/

/-- The scramble bit by bit: each bit is XORed with the one 30 places above it, 0 above bit 31 (R90). -/
theorem scr_getLsbD (p : Word) (n : Nat) : (scr p).getLsbD n = Bool.xor (p.getLsbD n) (p.getLsbD (30 + n)) := by
  rw [scr, BitVec.getLsbD_xor, BitVec.getLsbD_ushiftRight]

/-- Settles O4: only bits 0 and 1 have a bit 30 places above them. -/
theorem scrambleFoldsTwoTopBits : Obligations.ScrambleFoldsTwoTopBits := by
  unfold Obligations.ScrambleFoldsTwoTopBits
  refine fun p => ⟨rfl, scr_getLsbD p 0, scr_getLsbD p 1, fun n h2 _ => ?_⟩
  rw [scr_getLsbD, BitVec.getLsbD_of_ge p (30 + n) (by omega), Bool.xor_false]

/-! ## What the seed loaders leave -/

/-- SEEDS completes from every state and leaves the scalar-seeded vector with a twist pending (R91). -/
theorem exec_seeds (seed : Word) (s : State) :
    exec (.seeds seed) s =
      .next { gen := seedGen seed s.gen, input := s.input, output := s.output ++ [[0#32]] } :=
  exec_eq (.seeds seed) s

/-- SEEDA completes from every state and leaves the array-seeded vector with a twist pending (R93). -/
theorem exec_seeda (key : List Word) (s : State) :
    exec (.seeda key) s =
      .next { gen := seedaGen key s.gen, input := s.input, output := s.output ++ [[0#32]] } :=
  exec_eq (.seeda key) s

/-- Settles O9: the block left from reset is the block left from every state. -/
theorem seedingDiscardsTheOldState : Obligations.SeedingDiscardsTheOldState := by
  unfold Obligations.SeedingDiscardsTheOldState
  refine ⟨fun seed => ⟨seedGen seed Gen.reset, fun s => ?_⟩, fun key => ⟨seedaGen key Gen.reset, fun s => ?_⟩⟩
  · rw [exec_seeds, seedGen_indep seed s.gen Gen.reset]
  · rw [exec_seeda, seedaGen_indep key s.gen Gen.reset]

/-! ## Scalar seeding -/

/-- The scalar-seeded vector meets the spec's recurrence, whatever it was filled over (R91). -/
theorem seedOf_seedWords (seed : Word) (w : Words) : SeedOf seed (seedWords seed w) := by
  refine ⟨seedWords_read seed w (k := 0) (by decide), fun i h1 h2 => ?_⟩
  obtain ⟨n, rfl⟩ : ∃ n, i = n + 1 := ⟨i - 1, by omega⟩
  rw [Nat.add_sub_cancel, seedWords_read seed w (k := n + 1) (by omega), seedWords_read seed w (k := n) (by omega)]
  rfl

/-- Settles O5: the witness is the vector that the loop of SEEDS leaves. -/
theorem seedsFillsByRecurrence : Obligations.SeedsFillsByRecurrence := by
  unfold Obligations.SeedsFillsByRecurrence
  exact fun seed s => ⟨rfl, _, seedOf_seedWords seed s.gen.words, exec_seeds seed s⟩

/-! ## The mixing passes of array seeding -/

/-- A counter reduced modulo `l` goes up by one, and back to 0 where that reaches `l`: the advance of the key cursor
(R94). -/
theorem succ_mod_eq_wrap (n : Nat) {l : Nat} (hl : 0 < l) :
    (n + 1) % l = if n % l + 1 ≥ l then 0 else n % l + 1 := by
  have hlt : n % l < l := Nat.mod_lt n hl
  rw [← Nat.mod_add_mod]
  split
  · next hge =>
    have hend : n % l + 1 = l := Nat.le_antisymm hlt hge
    rw [hend, Nat.mod_self]
  · next hge => exact Nat.mod_eq_of_lt (Nat.not_le.mp hge)

/-- The key cursor after `n` iterations of the first pass is the one that iteration `n + 1` reads (R94, R97). -/
theorem mix1_j (key : List Word) (b : Words) (n : Nat) : (mix1 key b n).j = mixKeyPos key.length (n + 1) := by
  unfold mixKeyPos
  rw [Nat.add_sub_cancel]
  induction n with
  | zero => rw [mix1_zero, Nat.zero_mod, ite_self]
  | succ n ih =>
    rw [mix1_succ]
    simp only [mix1Step, advanceJ_j, advanceI_j, ih]
    by_cases h0 : key.length = 0
    · simp only [h0, Nat.zero_le, if_true, ge_iff_le]
    · rw [if_neg h0, if_neg h0, succ_mod_eq_wrap n (Nat.pos_of_ne_zero h0)]

/-- Settles O7: the cursors' closed forms, the state cursor's carried over into the second pass. -/
theorem mixingCursorsStandWhereTheRulesSay : Obligations.MixingCursorsStandWhereTheRulesSay := by
  unfold Obligations.MixingCursorsStandWhereTheRulesSay
  exact fun key w => ⟨fun n => ⟨mix1_i key w n, mix1_j key w n⟩, mix2_i key w⟩

/-- The second pass writes each position once: the last of the 623 iterations that wrote the position of iteration
`n` is iteration `n` itself. -/
theorem lastWrite_mixPos {l n : Nat} (h1 : l < n) (h2 : n ≤ l + 623) : lastWrite (l + 623) (mixPos n) = n := by
  unfold lastWrite mixPos
  omega

/-- The array-seeded vector meets the recurrences of the two passes: the words that the iterations write are
`mixSeq` over the scalar-seeded vector (R93 to R97). -/
theorem mixOf_seedaWords (key : List Word) (w : Words) : MixOf key (seedaWords key w) := by
  refine ⟨seedWords ARRAY_BASE_SEED w, mixSeq key (seedWords ARRAY_BASE_SEED w), seedOf_seedWords _ w, rfl,
    fun n h1 h2 => ?_, fun n h1 h2 => ?_, seedaWords_read_zero key w, fun n h1 h2 => ?_⟩
  · obtain ⟨m, rfl⟩ : ∃ m, n = m + 1 := ⟨n - 1, by omega⟩
    rw [mixSeq_first key _ m h2, mix1_j]
    rfl
  · obtain ⟨m, rfl⟩ : ∃ m, n = m + 1 := ⟨n - 1, by omega⟩
    exact mixSeq_second key _ m (Nat.le_of_lt_succ h1)
  · have hpos : 1 ≤ mixPos n ∧ mixPos n ≤ 623 := by unfold mixPos; omega
    rw [seedaWords_read key w hpos.1 hpos.2]
    exact congrArg _ (lastWrite_mixPos h1 h2)

/-- Settles O6: the witness is the vector that the loops of SEEDA leave. -/
theorem seedaFillsByMixingPasses : Obligations.SeedaFillsByMixingPasses := by
  unfold Obligations.SeedaFillsByMixingPasses
  exact fun key s => ⟨rfl, _, mixOf_seedaWords key s.gen.words, exec_seeda key s⟩

/-! ## The empty key -/

/-- Every read of the one-word key 0 gives the word that stands in for a missing key word (R97). -/
theorem keyWord_nil_eq_zero (j : Nat) : keyWord [] j = keyWord [0x00000000#32] j := by
  cases j <;> rfl

/-- The key cursor of a key of no words moves as that of a key of one word: it stays at 0 (R97). -/
theorem advanceJ_zero_eq_one (m : Mix) : advanceJ 0 m = advanceJ 1 m := by
  unfold advanceJ
  rw [if_pos (Nat.zero_le _), if_pos (Nat.le_add_left 1 m.j)]

/-- An iteration of the first pass does the same for the empty key and the key 0 (R97). -/
theorem mix1Step_nil_eq_zero : mix1Step [] = mix1Step [0x00000000#32] := by
  funext m
  simp only [mix1Step, keyWord_nil_eq_zero, List.length_nil, List.length_singleton, advanceJ_zero_eq_one]

/-- For the empty key and the key 0 the first pass is 624 of the same iterations, so they leave one vector (R97). -/
theorem seedaWords_nil_eq_zero (w : Words) : seedaWords [] w = seedaWords [0x00000000#32] w := by
  have hlen : max 624 ([] : List Word).length = max 624 [0x00000000#32].length := rfl
  simp only [seedaWords, mix1, mix1Step_nil_eq_zero, hlen]

/-- Settles O8: the two keys' vectors are equal, and SEEDA's outcome is made of its vector alone. -/
theorem emptyKeySeedsAsTheKeyZero : Obligations.EmptyKeySeedsAsTheKeyZero := by
  unfold Obligations.EmptyKeySeedsAsTheKeyZero
  intro s
  rw [exec_seeda, exec_seeda, seedaGen, seedaGen, seedaWords_nil_eq_zero]

end Sys2Proof.Machine

/-! PROOFS. The family `41_word_generation.md`: the twist and its three-range form (R112 to R114, R121), tempering
(R116), NEXT32 from every state (R110, R111, R115), its sequence after seeding (R119), and the all-zero vector
(R120). -/

namespace Sys2Proof.Machine

open Sys2Proof.Safety

/-! ## The twist, word by word -/

/-- The term of one twist step is the spec's (R112). -/
theorem twistTerm_eq_twistMix (a b : Word) : twistTerm a b = twistMix a b := rfl

/-- A word that one of the first `n` steps has written has its new value from then on (R113). -/
theorem twistLoop_read_new (w : Words) {k n : Nat} (hk : k < n) (hn : n ≤ 624) :
    readW (loop twistStep n w) (wIndex k) = readW (twistWords w) (wIndex k) :=
  (twistLoop_read_earlier w hn (Nat.le_refl 624) hk).symm

/-- Word `k` after the twist, where the word after it is still the old one at step `k`: every word but the last
(R113). -/
theorem twistWords_read_of_lt (w : Words) {k : Nat} (hk : k ≤ 622) :
    readW (twistWords w) (wIndex k) = readW (loop twistStep k w) (wIndex (k + 397)) ^^^
      twistMix (readW w (wIndex k)) (readW w (wIndex (k + 1))) := by
  have hnext : readW (loop twistStep k w) (wIndex (k + 1)) = readW w (wIndex (k + 1)) :=
    twistLoop_read_later w k (by omega) (Nat.le_succ k) (by omega)
  rw [twistWords_read w (by omega), hnext, twistTerm_eq_twistMix]

/-- The twist reads the old and the new words as the spec's table says: step `k` finds the old word where it reads
at or above `k`, and the new word where it reads below `k` (R113). -/
theorem twistOf_twistWords (w : Words) : TwistOf w (twistWords w) := by
  refine ⟨fun k hk => ?low, fun k h1 h2 => ?middle, ?last⟩
  case low =>
    have hsource : readW (loop twistStep k w) (wIndex (k + 397)) = readW w (wIndex (k + 397)) :=
      twistLoop_read_later w k (by omega) (by omega) (by omega)
    rw [twistWords_read_of_lt w (by omega), hsource]
  case middle =>
    have hwrap : wIndex (k + 397) = wIndex (k - 227) := Fin.ext (by simp only [wIndex_val]; omega)
    rw [twistWords_read_of_lt w h2, hwrap, twistLoop_read_new w (by omega) (by omega)]
  case last =>
    have hsource : readW (loop twistStep 623 w) (wIndex 396) = readW (twistWords w) (wIndex 396) :=
      twistLoop_read_new w (by decide) (by decide)
    have hnext : readW (loop twistStep 623 w) (wIndex 0) = readW (twistWords w) (wIndex 0) :=
      twistLoop_read_new w (by decide) (by decide)
    have h := twistWords_read w (k := 623) (by decide)
    rw [show wIndex (623 + 397) = wIndex 396 from rfl, show wIndex (623 + 1) = wIndex 0 from rfl, hsource, hnext] at h
    exact h

/-- Settles O10: `twistOf_twistWords` for every vector. -/
theorem twistReadsOldAndNewWords : Obligations.TwistReadsOldAndNewWords := by
  unfold Obligations.TwistReadsOldAndNewWords
  exact twistOf_twistWords

/-! ## The three-range form -/

/-- A step of the three-range form is the modular step, where its two indices are the reduced ones (R114). -/
theorem rangeStep_eq_twistStep {k next source : Nat} (hnext : wIndex next = wIndex (k + 1))
    (hsource : wIndex source = wIndex (k + 397)) (w : Words) : rangeStep k next source w = twistStep k w := by
  rw [rangeStep, hnext, hsource]
  rfl

/-- Settles O11: the 624 steps are cut into 227, 396 and 1, and each range's steps are the modular ones. -/
theorem threeRangeTwistIsTheTwist : Obligations.ThreeRangeTwistIsTheTwist := by
  unfold Obligations.ThreeRangeTwistIsTheTwist
  intro g
  have hsplit : twistWords g.words =
      twistStep 623 (loop (fun n => twistStep (227 + n)) 396 (loop twistStep 227 g.words)) := by
    rw [← loop_add twistStep 227 396, ← loop_succ twistStep 623]
    rfl
  have hfirst : loop (fun k w => rangeStep k (k + 1) (k + 397) w) 227 g.words = loop twistStep 227 g.words :=
    loop_congr 227 _ fun _ w _ => rangeStep_eq_twistStep rfl rfl w
  have hsecond (v : Words) : loop (fun n w => rangeStep (n + 227) (n + 228) n w) 396 v =
      loop (fun n => twistStep (227 + n)) 396 v :=
    loop_congr 396 v fun n w _ => by
      rw [rangeStep_eq_twistStep rfl (Fin.ext (by simp only [wIndex_val]; omega)), Nat.add_comm]
  have hlast (v : Words) : rangeStep 623 0 396 v = twistStep 623 v := rangeStep_eq_twistStep rfl rfl v
  rw [twist, hsplit, threeRangeTwist, hfirst, hsecond, hlast]

/-! ## Tempering -/

/-- Tempering is the spec's four steps (R116). -/
theorem temper_eq_temperOf (y : Word) : temper y = temperOf y := rfl

/-- Settles O12: the steps are the same by definition, and the corner cases are evaluated. -/
theorem temperingIsFourSteps : Obligations.TemperingIsFourSteps := by
  unfold Obligations.TemperingIsFourSteps
  exact ⟨temper_eq_temperOf, by decide, by decide, by decide, by decide⟩

/-! ## One generation request -/

/-- NEXT32 completes from every state, with the block and the word of `nextWord` (R110). -/
theorem exec_next32 (s : State) :
    exec .next32 s = .next { gen := (nextWord s.gen).2, input := s.input,
                             output := s.output ++ [[0#32, (nextWord s.gen).1]] } :=
  exec_eq .next32 s

/-- Below 624 a request extracts at the index and moves it on (R110, R115). -/
theorem nextWord_of_lt {g : Gen} (h : g.idx.val < 624) :
    nextWord g = (temperOf (readW g.words (wIndex g.idx.val)), { words := g.words, idx := idxOf (g.idx.val + 1) }) := by
  rw [nextWord, prepare_of_lt h]
  rfl

/-- At 624 a request twists and extracts the new word 0 (R110, R115). -/
theorem nextWord_of_pending {g : Gen} (h : g.idx.val = 624) :
    nextWord g = (temperOf (readW (twistWords g.words) 0), { words := twistWords g.words, idx := 1 }) := by
  rw [nextWord, prepare_of_pending h]
  rfl

/-- At 625 a request does what it does after the auto-seed (R110, R111). -/
theorem nextWord_of_unseeded {g : Gen} (h : g.idx.val = 625) : nextWord g = nextWord (autoseed g) := by
  have hpending : (autoseed g).idx.val = 624 := rfl
  rw [nextWord, nextWord, prepare_of_unseeded h, prepare_of_pending hpending]

/-- The first word of the default sequence, whatever the seeding overwrote (R111). -/
theorem first_default_word (w : Words) :
    temperOf (readW (twistWords (seedWords DEFAULT_SEED w)) 0) = 3499211612#32 := by
  have hread := (twistOf_twistWords (seedWords DEFAULT_SEED w)).1 0 (Nat.zero_le _)
  rw [seedWords_read _ _ (by decide), seedWords_read _ _ (by decide), seedWords_read _ _ (by decide)] at hread
  rw [show (0 : Fin 624) = wIndex 0 from rfl, hread]
  decide +kernel

/-- Settles O13: the three rows of the table are the three cases of `nextWord`. -/
theorem next32ByIndex : Obligations.Next32ByIndex := by
  unfold Obligations.Next32ByIndex
  refine ⟨rfl, fun s => ⟨fun n hn hle => ?pendingWords, fun h => ?twistPending, fun h => ?neverSeeded⟩⟩
  case pendingWords =>
    subst hn
    refine ⟨idxOf (s.gen.idx.val + 1), idxOf_val_of_lt (by omega), ?_⟩
    rw [exec_next32, nextWord_of_lt (by omega)]
  case twistPending =>
    refine ⟨_, twistOf_twistWords s.gen.words, ?_⟩
    rw [exec_next32, nextWord_of_pending h]
  case neverSeeded =>
    have hword := first_default_word s.gen.words
    refine ⟨_, _, seedOf_seedWords 5489#32 s.gen.words, twistOf_twistWords _, ?_, hword⟩
    have hpending : (autoseed s.gen).idx.val = 624 := rfl
    rw [← hword, exec_next32, nextWord_of_unseeded h, nextWord_of_pending hpending]
    rfl

/-! ## The auto-seed -/

/-- A generation command, word or double, has one effect on blocks whose next request gives the same (R140). -/
theorem effect_eq_of_nextWord_eq {g h : Gen} (e : nextWord g = nextWord h) {i : Instr}
    (hi : i = .next32 ∨ i = .nextf64) : effect i g = effect i h := by
  rcases hi with rfl | rfl
  · simp only [effect, e]
  · simp only [effect, nextDouble, e]

/-- Settles O14: `SEEDS 5489` leaves the auto-seeded block, whose next request gives what the never-seeded block's
gives. -/
theorem autoseedIsTheDefaultSeed : Obligations.AutoseedIsTheDefaultSeed := by
  unfold Obligations.AutoseedIsTheDefaultSeed
  intro s t hs hseed i hi
  have ht : t.gen = autoseed s.gen := congrArg State.gen (eq_of_exec_next hseed)
  have heffect : effect i s.gen = effect i t.gen := by
    rw [ht]
    exact effect_eq_of_nextWord_eq (nextWord_of_unseeded hs) hi
  refine ⟨(effect i s.gen).1, (effect i s.gen).2, exec_eq i s, ?_⟩
  rw [heffect]
  exact exec_eq i t

/-! ## A sequence of NEXT32 -/

/-- With words or a twist pending, a request extracts at the index, 624 taken as 0 (R110). -/
theorem prepare_idx_of_le {g : Gen} (h : g.idx.val ≤ 624) : (prepare g).idx.val = g.idx.val % 624 := by
  rcases Nat.lt_or_eq_of_le h with hlt | heq
  · rw [prepare_of_lt hlt, Nat.mod_eq_of_lt hlt]
  · rw [prepare_of_pending heq, heq]
    rfl

/-- The index after such a request (R115). -/
theorem nextWord_idx_of_le {g : Gen} (h : g.idx.val ≤ 624) : (nextWord g).2.idx.val = g.idx.val % 624 + 1 := by
  rw [nextWord_idx, prepare_idx_of_le h]

/-- The word such a request gives, read from the vector it leaves (R115 to R117). -/
theorem nextWord_result_of_le {g : Gen} (h : g.idx.val ≤ 624) :
    (nextWord g).1 = temperOf (readW (nextWord g).2.words (wIndex g.idx.val)) := by
  rw [nextWord_result, prepare_idx_of_le h, wIndex_mod]
  rfl

/-- The block after `n` NEXT32 commands. -/
def afterNext32s (n : Nat) (g : Gen) : Gen := (fun h => (nextWord h).2)^[n] g

theorem afterNext32s_succ (n : Nat) (g : Gen) : afterNext32s (n + 1) g = (nextWord (afterNext32s n g)).2 :=
  Function.iterate_succ_apply' _ n g

theorem effectAll_next32s_gen (n : Nat) (g : Gen) :
    (effectAll (List.replicate n .next32) g).1 = afterNext32s n g := by
  induction n generalizing g with
  | zero => rfl
  | succ n ih => exact ih (nextWord g).2

/-- From a pending twist, `n` NEXT32 commands leave the index in 1 to 624 and congruent to `n` (R119). -/
theorem afterNext32s_idx {g : Gen} (hg : g.idx.val = 624) (n : Nat) :
    1 ≤ (afterNext32s n g).idx.val ∧ (afterNext32s n g).idx.val ≤ 624 ∧
      (afterNext32s n g).idx.val % 624 = n % 624 := by
  induction n with
  | zero =>
    have h0 : (afterNext32s 0 g).idx.val = 624 := hg
    omega
  | succ n ih =>
    obtain ⟨-, hle, hmod⟩ := ih
    rw [afterNext32s_succ, nextWord_idx_of_le hle]
    omega

/-- Settles O15: before command `m + 1` the index is in 1 to 624 and congruent to `m`, so that command twists exactly
where `m mod 624` is 0. -/
theorem twistPositionsAfterSeeding : Obligations.TwistPositionsAfterSeeding := by
  unfold Obligations.TwistPositionsAfterSeeding
  intro s hs n hn
  obtain ⟨m, rfl⟩ : ∃ m, n = m + 1 := ⟨n - 1, by omega⟩
  rw [Nat.add_sub_cancel]
  refine ⟨_, _, execAll_eq _ s, exec_next32 _, ?_⟩
  rw [effectAll_next32s_gen]
  obtain ⟨hpos, hle, hmod⟩ := afterNext32s_idx hs m
  refine ⟨?index, ?twists, ?word⟩
  case index => rw [nextWord_idx_of_le hle, hmod]
  case twists =>
    split
    · next h0 =>
      have hpending : (afterNext32s m s.gen).idx.val = 624 := by omega
      rw [nextWord_of_pending hpending]
      exact twistOf_twistWords (afterNext32s m s.gen).words
    · next h0 =>
      have hlt : (afterNext32s m s.gen).idx.val < 624 := by omega
      rw [nextWord_of_lt hlt]
  case word =>
    have hindex : wIndex m = wIndex (afterNext32s m s.gen).idx.val := Fin.ext hmod.symm
    rw [nextWord_result_of_le hle, hindex]

/-! ## The all-zero vector -/

/-- The vector whose words are all 0 (R120). -/
def AllZero (w : Words) : Prop := ∀ i, readW w i = 0#32

/-- A twist step on the all-zero vector writes a zero (R120). -/
theorem twistStep_allZero (k : Nat) {w : Words} (h : AllZero w) : AllZero (twistStep k w) := by
  intro i
  have hterm : 0#32 ^^^ twistTerm 0#32 0#32 = 0#32 := by decide
  rw [twistStep, readW_writeW, h, h, h, h, hterm, ite_self]

/-- The twist of the all-zero vector is all zero (R120). -/
theorem twistWords_allZero {w : Words} (h : AllZero w) : AllZero (twistWords w) :=
  loop_induction (P := fun _ => AllZero) 624 h fun k _ _ => twistStep_allZero k

/-- With words or a twist pending, a request on the all-zero vector keeps it and gives 0 (R120). -/
theorem nextWord_allZero {g : Gen} (hle : g.idx.val ≤ 624) (h : AllZero g.words) :
    AllZero (nextWord g).2.words ∧ (nextWord g).1 = 0#32 := by
  have hkept : AllZero (nextWord g).2.words := by
    rcases Nat.lt_or_eq_of_le hle with hlt | heq
    · rw [nextWord_of_lt hlt]
      exact h
    · rw [nextWord_of_pending heq]
      exact twistWords_allZero h
  refine ⟨hkept, ?_⟩
  rw [nextWord_result_of_le hle, hkept]
  decide

/-- Scalar seeding leaves a word that is not 0: over a word 0 that is 0, its recurrence makes word 1 the number 1
(R91, R120). -/
theorem not_allZero_of_seedOf {seed : Word} {w : Words} (h : SeedOf seed w) : ¬ AllZero w := by
  intro hzero
  have h1 := h.2 1 (Nat.le_refl 1) (by decide)
  rw [hzero, hzero] at h1
  exact absurd h1 (by decide)

/-- Array seeding leaves a word 0 that is not 0 (R96, R120). -/
theorem not_allZero_seedaWords (key : List Word) (w : Words) : ¬ AllZero (seedaWords key w) := by
  intro hzero
  have h0 := hzero 0
  rw [seedaWords_read_zero] at h0
  exact absurd h0 (by decide)

/-- Settles O16: the twist and each generation request keep the all-zero vector, and a double of two zero words is
the pattern 0; the seed loaders by the words they leave. -/
theorem allZeroVectorIsAFixedPoint : Obligations.AllZeroVectorIsAFixedPoint := by
  unfold Obligations.AllZeroVectorIsAFixedPoint
  refine ⟨fun _ h => twistWords_allZero h, fun s hzero hle => ?_, fun seed s t ht => ?_, fun key s t ht => ?_⟩
  · obtain ⟨hzero1, hword1⟩ := nextWord_allZero hle hzero
    have hidx1 := nextWord_idx_of_le hle
    have hle1 := nextWord_idx_le s.gen
    obtain ⟨hzero2, hword2⟩ := nextWord_allZero hle1 hzero1
    have hidx2 := nextWord_idx_of_le hle1
    rw [hidx1] at hidx2
    have hresponse : (effect .nextf64 s.gen).2 = [0#32, 0#32, 0#32] := by
      simp only [effect, nextDouble, hword1, hword2]
      decide
    refine ⟨⟨_, exec_next32 s, hzero1, hidx1, ?_⟩, ⟨_, exec_eq .nextf64 s, hzero2, hidx2, ?_⟩⟩
    · rw [hword1]
    · rw [hresponse]
  · rw [eq_of_exec_next ht]
    exact not_forall.mp (not_allZero_of_seedOf (seedOf_seedWords seed s.gen.words))
  · rw [eq_of_exec_next ht]
    exact not_forall.mp (not_allZero_seedaWords key s.gen.words)

/-! ## The low bits of word 0 -/

/-- Of the word at `k`, step `k` uses bit 31 alone (R112). -/
theorem twistTerm_eq_of_bit31_eq {a b : Word} (h : a.getLsbD 31 = b.getLsbD 31) (c : Word) :
    twistTerm a c = twistTerm b c := by
  have hmask : UPPER_MASK = BitVec.twoPow 32 31 := by decide
  have hy : twistY a c = twistY b c := by
    simp only [twistY, hmask, BitVec.and_twoPow, h]
  simp only [twistTerm, hy]

/-- Step 0 of the twist overwrites the one word in which the vectors may differ, and of it uses bit 31 alone
(R121). -/
theorem twistStep_zero_congr {v w : Words} (hrest : ∀ i, i ≠ 0 → readW v i = readW w i)
    (hbit : (readW v 0).getLsbD 31 = (readW w 0).getLsbD 31) : twistStep 0 v = twistStep 0 w := by
  have hterm (c : Word) : twistTerm (readW v (wIndex 0)) c = twistTerm (readW w (wIndex 0)) c :=
    twistTerm_eq_of_bit31_eq hbit c
  refine words_ext fun i => ?_
  simp only [twistStep, readW_writeW]
  split
  · rw [hterm, hrest _ (by decide), hrest _ (by decide)]
  · next hi => exact hrest i (Ne.symm hi)

/-- The twist goes on from step 0 alike, so it does not see the low bits of word 0 (R121). -/
theorem twistWords_congr {v w : Words} (hrest : ∀ i, i ≠ 0 → readW v i = readW w i)
    (hbit : (readW v 0).getLsbD 31 = (readW w 0).getLsbD 31) : twistWords v = twistWords w := by
  have hsplit (u : Words) : twistWords u = loop (fun k => twistStep (1 + k)) 623 (twistStep 0 u) := by
    rw [twistWords, loop_add twistStep 1 623, loop_succ twistStep 0, loop_zero]
  rw [hsplit, hsplit, twistStep_zero_congr hrest hbit]

/-- Settles O17: the twist does not see the low bits of word 0, so a vector with no other bit set twists as the
all-zero vector does. -/
theorem twistIgnoresLowBitsOfWordZero : Obligations.TwistIgnoresLowBitsOfWordZero := by
  unfold Obligations.TwistIgnoresLowBitsOfWordZero
  refine ⟨fun _ _ => twistWords_congr, fun w hrest hbit n => ?_⟩
  have htwist : twistWords w = twistWords Gen.reset.words :=
    twistWords_congr (fun i hi => by rw [hrest i hi, readW_reset]) (by rw [hbit, readW_reset]; rfl)
  have hfirst : AllZero (twistWords w) := by
    rw [htwist]
    exact twistWords_allZero readW_reset
  have hlater : AllZero (twistWords^[n] (twistWords w)) :=
    Function.Iterate.rec AllZero hfirst (fun _ h => twistWords_allZero h) n
  exact hlater

end Sys2Proof.Machine


/-! PROOFS. The family `42_double_generation.md`: NEXTF64 as two generation requests (R140), the integer `m` that the
converter makes of two words (R141, R144), its binary64 pattern (R142), and the set of results (R143). -/

namespace Sys2Proof.Machine

open Sys2Proof.Safety

/-! ## Two requests in order -/

/-- NEXTF64 completes from every state, with the block and the pattern of `nextDouble` (R140). -/
theorem exec_nextf64 (s : State) :
    exec .nextf64 s = .next { gen := (nextDouble s.gen).2, input := s.input,
                              output := s.output ++ [[0#32, lowWord (nextDouble s.gen).1,
                                highWord (nextDouble s.gen).1]] } :=
  exec_eq .nextf64 s

/-- A request that twists, auto-seed or not, extracts the new word 0 (R110, R115). -/
theorem nextWord_idx_of_ge {g : Gen} (h : 624 ≤ g.idx.val) : (nextWord g).2.idx.val = 1 := by
  rcases Nat.lt_or_eq_of_le h with hlt | heq
  · have hunseeded : g.idx.val = 625 := by omega
    rw [nextWord_idx, prepare_of_unseeded hunseeded]
    rfl
  · rw [nextWord_of_pending heq.symm]
    rfl

/-- Settles O18: each draw is `nextWord`, and the second finds the index where the first left it, from 1 to 624. -/
theorem nextF64IsTwoWordsInOrder : Obligations.NextF64IsTwoWordsInOrder := by
  unfold Obligations.NextF64IsTwoWordsInOrder
  refine ⟨rfl, fun s => ⟨_, _, _, _, exec_next32 s, exec_next32 _, exec_nextf64 s, ?_⟩⟩
  rw [State.setGen_gen]
  have hle := nextWord_idx_le s.gen
  have hfirst := nextWord_idx_of_le (g := s.gen)
  have htwist := nextWord_idx_of_ge (g := s.gen)
  have hsecond := nextWord_idx_of_le hle
  refine ⟨?_, ?_, ?_, ?_, ?_⟩ <;> omega

/-! ## The integer `m` -/

/-- `m` is bits 31 to 5 of the first word above bits 31 to 6 of the second (R141). -/
theorem f64Mantissa_eq (word1 word2 : Word) :
    f64Mantissa word1 word2 = (word1.extractLsb' 5 27).toNat * 2 ^ 26 + (word2.extractLsb' 6 26).toNat := by
  have h1 := word1.isLt
  have h2 := word2.isLt
  simp only [f64Mantissa, F64_SCALE_A, BitVec.toNat_ushiftRight, BitVec.extractLsb'_toNat, Nat.shiftRight_eq_div_pow]
  omega

/-- The first word supplies the high 27 bits (R144). -/
theorem f64Mantissa_div (word1 word2 : Word) :
    f64Mantissa word1 word2 / 2 ^ 26 = (word1.extractLsb' 5 27).toNat := by
  have hlow := (word2.extractLsb' 6 26).isLt
  rw [f64Mantissa_eq]
  omega

/-- The second word supplies the low 26 bits (R144). -/
theorem f64Mantissa_mod (word1 word2 : Word) :
    f64Mantissa word1 word2 % 2 ^ 26 = (word2.extractLsb' 6 26).toNat := by
  have hlow := (word2.extractLsb' 6 26).isLt
  rw [f64Mantissa_eq]
  omega

/-- `m` has 53 bits (R141). -/
theorem f64Mantissa_lt (word1 word2 : Word) : f64Mantissa word1 word2 < 2 ^ 53 := by
  have hhigh := (word1.extractLsb' 5 27).isLt
  have hlow := (word2.extractLsb' 6 26).isLt
  rw [f64Mantissa_eq]
  omega

/-- Two pairs of words have the same `m` exactly when they agree in the bits kept (R143). -/
theorem f64Mantissa_eq_iff (a b c d : Word) : f64Mantissa a b = f64Mantissa c d ↔
    (a.extractLsb' 5 27 = c.extractLsb' 5 27 ∧ b.extractLsb' 6 26 = d.extractLsb' 6 26) := by
  constructor
  · intro h
    have hhigh := f64Mantissa_div c d
    have hlow := f64Mantissa_mod c d
    rw [← h, f64Mantissa_div] at hhigh
    rw [← h, f64Mantissa_mod] at hlow
    exact ⟨BitVec.eq_of_toNat_eq hhigh, BitVec.eq_of_toNat_eq hlow⟩
  · rintro ⟨hhigh, hlow⟩
    rw [f64Mantissa_eq, f64Mantissa_eq, hhigh, hlow]

/-- Every 53-bit integer is the `m` of some pair of words (R143). -/
theorem exists_f64Mantissa_eq {m : Nat} (h : m < 2 ^ 53) : ∃ word1 word2, f64Mantissa word1 word2 = m := by
  refine ⟨BitVec.ofNat 27 (m / 2 ^ 26) ++ 0#5, BitVec.ofNat 26 (m % 2 ^ 26) ++ 0#6, ?_⟩
  rw [f64Mantissa_eq, BitVec.extractLsb'_append_eq_left, BitVec.extractLsb'_append_eq_left, BitVec.toNat_ofNat,
    BitVec.toNat_ofNat]
  omega

/-- Settles O21: the two halves of `m`, and the worked pair in both orders evaluated. -/
theorem f64WordOrderIsFixed : Obligations.F64WordOrderIsFixed := by
  unfold Obligations.F64WordOrderIsFixed
  exact ⟨fun word1 word2 => ⟨f64Mantissa_div word1 word2, f64Mantissa_mod word1 word2⟩, by decide, by decide⟩

/-! ## The binary64 pattern -/

@[simp] theorem binary64_zero : binary64 0 = 0x0000000000000000#64 := rfl

/-- The pattern of a number that is not 0, its three fields one after the other (R142). -/
theorem binary64_of_ne_zero {m : Nat} (h : m ≠ 0) :
    binary64 m = 0#1 ++ BitVec.ofNat 11 (970 + m.log2) ++ BitVec.ofNat 52 (m <<< (52 - m.log2)) := if_neg h

/-- The highest set bit of a 53-bit integer is at most bit 52 (R142). -/
theorem log2_le_of_lt {m : Nat} (h : m ≠ 0) (hm : m < 2 ^ 53) : m.log2 ≤ 52 :=
  Nat.le_of_lt_succ ((Nat.log2_lt h).mpr hm)

/-- The sign bit is 0 (R142). -/
theorem binary64_sign (m : Nat) : (binary64 m).getLsbD 63 = false := by
  by_cases h : m = 0
  · rw [h]
    rfl
  · rw [binary64_of_ne_zero h, BitVec.getLsbD_append, BitVec.getLsbD_append]
    rfl

/-- The exponent field is `970 + p`, `p` the highest set bit (R142). -/
theorem binary64_exponent {m : Nat} (h : m ≠ 0) (hm : m < 2 ^ 53) :
    ((binary64 m).extractLsb' 52 11).toNat = 970 + m.log2 := by
  have hp := log2_le_of_lt h hm
  rw [binary64_of_ne_zero h, BitVec.extractLsb'_append_eq_of_le (Nat.le_refl 52), Nat.sub_self,
    BitVec.extractLsb'_append_eq_right, BitVec.toNat_ofNat]
  omega

/-- The fraction field is `m`, aligned so that its highest set bit is bit 52, without that bit (R142). -/
theorem binary64_fraction {m : Nat} (h : m ≠ 0) :
    ((binary64 m).extractLsb' 0 52).toNat = m * 2 ^ (52 - m.log2) % 2 ^ 52 := by
  rw [binary64_of_ne_zero h, BitVec.extractLsb'_append_eq_right, BitVec.toNat_ofNat, Nat.shiftLeft_eq]

/-- The fraction below the leading 1 is all of `m`, aligned: no bit is lost (R141, R142). -/
theorem binary64_significand {m : Nat} (h : m ≠ 0) (hm : m < 2 ^ 53) :
    2 ^ 52 + ((binary64 m).extractLsb' 0 52).toNat = m * 2 ^ (52 - m.log2) := by
  have hp := log2_le_of_lt h hm
  have hlow : 2 ^ 52 ≤ m * 2 ^ (52 - m.log2) := by
    calc 2 ^ 52 = 2 ^ m.log2 * 2 ^ (52 - m.log2) := by rw [← pow_add, Nat.add_sub_cancel' hp]
      _ ≤ m * 2 ^ (52 - m.log2) := Nat.mul_le_mul_right _ (Nat.log2_self_le h)
  have hhigh : m * 2 ^ (52 - m.log2) < 2 ^ 53 := by
    calc m * 2 ^ (52 - m.log2) < 2 ^ (m.log2 + 1) * 2 ^ (52 - m.log2) :=
          Nat.mul_lt_mul_of_pos_right Nat.lt_log2_self (Nat.two_pow_pos _)
      _ = 2 ^ 53 := by rw [← pow_add]; congr 1; omega
  rw [binary64_fraction h]
  omega

/-- A pattern with sign 0 and an exponent that is not 0 denotes a normal number (R142). -/
theorem binary64Value_of_normal {d : BitVec 64} (hsign : d.getLsbD 63 = false)
    (hexp : (d.extractLsb' 52 11).toNat ≠ 0) :
    binary64Value d =
      (1 + (d.extractLsb' 0 52).toNat / 2 ^ 52) * (2 : ℚ) ^ (((d.extractLsb' 52 11).toNat : ℤ) - 1023) := by
  simp only [binary64Value, hsign, Bool.false_eq_true, if_false, if_neg hexp, one_mul]

/-- The pattern of a 53-bit integer `m` denotes `m / 2^53`, with no rounding: the significand is `m * 2^(52 - p)` over
`2^52`, and the exponent scales it by `2^(p - 53)` (R141, R142). -/
theorem binary64Value_binary64 {m : Nat} (hm : m < 2 ^ 53) : binary64Value (binary64 m) = (m : ℚ) / 2 ^ 53 := by
  by_cases h : m = 0
  · subst h
    simp [binary64Value]
  · have hexp := binary64_exponent h hm
    have hsig : (2 : ℚ) ^ 52 + ((binary64 m).extractLsb' 0 52).toNat = m * 2 ^ (52 - m.log2) := by
      exact_mod_cast binary64_significand h hm
    have hscale : (2 : ℚ) ^ (((970 + m.log2 : ℕ) : ℤ) - 1023) = 2 ^ m.log2 / 2 ^ 53 := by
      rw [show ((970 + m.log2 : ℕ) : ℤ) - 1023 = m.log2 - (53 : ℕ) by omega, zpow_sub₀ two_ne_zero, zpow_natCast,
        zpow_natCast]
    have halign : (2 : ℚ) ^ (52 - m.log2) * 2 ^ m.log2 = 2 ^ 52 := by
      rw [← pow_add, Nat.sub_add_cancel (log2_le_of_lt h hm)]
    rw [binary64Value_of_normal (binary64_sign m) (by omega), hexp, hscale]
    calc (1 + (((binary64 m).extractLsb' 0 52).toNat : ℚ) / 2 ^ 52) * ((2 : ℚ) ^ m.log2 / 2 ^ 53)
        = ((2 : ℚ) ^ 52 + ((binary64 m).extractLsb' 0 52).toNat) * 2 ^ m.log2 / (2 ^ 52 * 2 ^ 53) := by ring
      _ = (m : ℚ) * (2 ^ (52 - m.log2) * 2 ^ m.log2) / (2 ^ 52 * 2 ^ 53) := by rw [hsig, mul_assoc]
      _ = (m : ℚ) / 2 ^ 53 := by rw [halign]; ring

/-- Different 53-bit integers have different patterns, since they denote different numbers (R143). -/
theorem binary64_inj {m n : Nat} (hm : m < 2 ^ 53) (hn : n < 2 ^ 53) : binary64 m = binary64 n ↔ m = n := by
  refine ⟨fun h => ?_, congrArg binary64⟩
  have hvalue : (m : ℚ) / 2 ^ 53 = n / 2 ^ 53 := by
    rw [← binary64Value_binary64 hm, ← binary64Value_binary64 hn, h]
  exact_mod_cast (div_left_inj' (by norm_num)).mp hvalue

/-- Settles O19: the pattern's fields and its value, for the `m` of the two words. -/
theorem f64PatternDenotesTheExactValue : Obligations.F64PatternDenotesTheExactValue := by
  unfold Obligations.F64PatternDenotesTheExactValue
  intro word1 word2 m d
  have hm : m < 2 ^ 53 := f64Mantissa_lt word1 word2
  have hd : d = binary64 m := rfl
  rw [hd]
  refine ⟨hm, ?_, binary64_sign m, fun h => by rw [h, binary64_zero], fun h =>
    ⟨m.log2, Nat.log2_self_le h, Nat.lt_log2_self, log2_le_of_lt h hm, binary64_exponent h hm, binary64_fraction h⟩⟩
  rw [binary64Value_binary64 hm]
  norm_num

/-- Settles O20: the pattern determines `m`, and `m` is exactly the bits kept. -/
theorem f64ResultsAreTheKeptBits : Obligations.F64ResultsAreTheKeptBits := by
  unfold Obligations.F64ResultsAreTheKeptBits
  refine ⟨fun m hm => ?_, fun a b c d => ?_⟩
  · obtain ⟨word1, word2, h⟩ := exists_f64Mantissa_eq hm
    exact ⟨word1, word2, congrArg binary64 h⟩
  · rw [← f64Mantissa_eq_iff]
    exact binary64_inj (f64Mantissa_lt a b) (f64Mantissa_lt c d)

end Sys2Proof.Machine

/-! PROOFS. The family `43_state_access.md`: reading and replacing the vector (R150, R151), reading and writing the
index (R152, R153), and restoring a block from a snapshot of both (R154). -/

namespace Sys2Proof.Machine

/-! ## The vector as a packet's words -/

/-- Word `n` of the vector's packet is the raw word `n` (R65, R150). -/
theorem words_toList_getElem? (w : Words) {n : Nat} (h : n < 624) : w.toList[n]? = some (readW w (wIndex n)) := by
  have hindex : w[n] = readW w (wIndex n) := by simp only [readW, wIndex_val_of_lt h]
  rw [Vector.getElem?_toList, Vector.getElem?_eq_getElem h, hindex]

/-! ## Reading and replacing the vector -/

/-- GETST completes from every state with the vector's words and leaves the block as it is (R150). -/
theorem exec_getst (s : State) :
    exec .getst s =
      .next { gen := s.gen, input := s.input, output := s.output ++ [0#32 :: s.gen.words.toList] } :=
  exec_eq .getst s

/-- SETST completes from every state and replaces the vector alone (R151). -/
theorem exec_setst (v : Words) (s : State) :
    exec (.setst v) s =
      .next { gen := s.gen.setWords v, input := s.input, output := s.output ++ [[0#32]] } :=
  exec_eq (.setst v) s

/-- Settles O22: the answered words are the vector as a list. -/
theorem getstAnswersTheWholeVector : Obligations.GetstAnswersTheWholeVector := by
  unfold Obligations.GetstAnswersTheWholeVector
  exact ⟨rfl, fun s => ⟨s.gen.words.toList, Vector.length_toList, fun _ => words_toList_getElem? s.gen.words,
    exec_getst s⟩⟩

/-- Settles O23: the operand words are the vector as a list, and the block's own vector is the one written back. -/
theorem setstReplacesTheVectorOnly : Obligations.SetstReplacesTheVectorOnly := by
  unfold Obligations.SetstReplacesTheVectorOnly
  exact fun v s => ⟨⟨v.toList, rfl, Vector.length_toList, fun _ => words_toList_getElem? v⟩,
    ⟨v, fun _ => rfl, exec_setst v s⟩, exec_setst s.gen.words s⟩

/-! ## Reading and writing the index -/

/-- The index as a word loses nothing, 625 included (R11, R152). -/
theorem toWord_idx_toNat (n : Fin 626) : (toWord n.val).toNat = n.val :=
  Nat.mod_eq_of_lt (by omega)

/-- GETIDX completes from every state with the index as a word and leaves the block as it is (R152). -/
theorem exec_getidx (s : State) :
    exec .getidx s =
      .next { gen := s.gen, input := s.input, output := s.output ++ [[0#32, toWord s.gen.idx.val]] } :=
  exec_eq .getidx s

/-- An operand up to 624 is written to the index alone (R153). -/
theorem effect_setidx_of_le {idx : Word} {n : Fin 626} (hn : n.val = idx.toNat) (h : idx.toNat ≤ 624) (g : Gen) :
    effect (.setidx idx) g = (g.setIdx n, [0#32]) := by
  have hsome : idxOperand idx = some n := by rw [idxOperand_of_le h, Option.some_inj]; exact Fin.ext hn.symm
  simp only [effect, hsome]
  rfl

/-- An operand above 624 changes nothing and is answered with status 1 alone (R153, R171). -/
theorem effect_setidx_of_gt {idx : Word} (h : 624 < idx.toNat) (g : Gen) :
    effect (.setidx idx) g = (g, [1#32]) := by
  simp only [effect, idxOperand_of_gt h]
  rfl

/-- Settles O24: the answered word is the index, which fits a word. -/
theorem getidxAnswersTheIndex : Obligations.GetidxAnswersTheIndex := by
  unfold Obligations.GetidxAnswersTheIndex
  exact ⟨rfl, fun s => ⟨toWord s.gen.idx.val, toWord_idx_toNat s.gen.idx, exec_getidx s⟩⟩

/-- Settles O25: the two clauses are the two sides of the operand's check against 624. -/
theorem setidxChecksItsOperand : Obligations.SetidxChecksItsOperand := by
  unfold Obligations.SetidxChecksItsOperand
  refine fun idx s => ⟨rfl, fun hle => ?accepted, fun hgt => ?rejected⟩
  case accepted =>
    have hfits : ∃ n : Fin 626, n.val = idx.toNat := ⟨⟨idx.toNat, by omega⟩, rfl⟩
    obtain ⟨n, hn⟩ := hfits
    refine ⟨n, hn, ?_⟩
    rw [exec_eq, effect_setidx_of_le hn hle]
    rfl
  case rejected => rw [exec_eq, effect_setidx_of_gt hgt]

/-! ## Restoring a snapshot -/

/-- SETST and SETIDX each write the half of the block that the other leaves, so a block's own vector and index bring
any block to it in either order (R154). -/
theorem effectAll_restore {g : Gen} (h : g.idx.val ≤ 624) (old : Gen) :
    effectAll [.setst g.words, .setidx (toWord g.idx.val)] old = (g, [[0#32], [0#32]]) ∧
      effectAll [.setidx (toWord g.idx.val), .setst g.words] old = (g, [[0#32], [0#32]]) := by
  have hword : (toWord g.idx.val).toNat = g.idx.val := toWord_idx_toNat g.idx
  have hsetidx : ∀ b : Gen, effect (.setidx (toWord g.idx.val)) b = (b.setIdx g.idx, [0#32]) :=
    effect_setidx_of_le hword.symm (hword.trans_le h)
  simp only [effectAll, hsetidx]
  exact ⟨rfl, rfl⟩

/-- What GETST answers is the vector (R150). -/
theorem eq_words_of_getst {s : State} {v : Words}
    (h : exec .getst s = .next { gen := s.gen, input := s.input, output := s.output ++ [0#32 :: v.toList] }) :
    v = s.gen.words := by
  rw [exec_getst] at h
  simpa [Vector.toList_inj, eq_comm] using h

/-- What GETIDX answers is the index as a word (R152). -/
theorem eq_toWord_of_getidx {s : State} {idx : Word}
    (h : exec .getidx s = .next { gen := s.gen, input := s.input, output := s.output ++ [[0#32, idx]] }) :
    idx = toWord s.gen.idx.val := by
  rw [exec_getidx] at h
  simpa [eq_comm] using h

/-- Settles O26: the snapshot is the block's own vector and index, which either order of writing restores. -/
theorem snapshotRestoresTheBlock : Obligations.SnapshotRestoresTheBlock := by
  unfold Obligations.SnapshotRestoresTheBlock
  intro s t v idx hle hgetst hgetidx
  obtain rfl := eq_words_of_getst hgetst
  obtain rfl := eq_toWord_of_getidx hgetidx
  obtain ⟨hwordsFirst, hindexFirst⟩ := effectAll_restore hle t.gen
  refine ⟨{ gen := s.gen, input := t.input, output := t.output ++ [[0#32], [0#32]] }, ?_, ?_, rfl, rfl, rfl⟩
  · rw [execAll_eq, hwordsFirst]
  · rw [execAll_eq, hindexFirst]

end Sys2Proof.Machine

/-! PROOFS. The family `60_exceptions.md`: the two rejections (R171, R172), the trace they leave (R176, R177), and
where a step answers no next state (R178, `93_implementation_defined.md` U8). -/

namespace Sys2Proof.Machine

/-! ## Illegal command words -/

/-- A stream whose leading words begin with an illegal word is fetched as that word; what is left of the stream follows
it (R68). -/
theorem fetch_of_decode_illegal {r : List HostInput} {w : Word} {rest : List Word}
    (h : decode (leadingWords r) = .illegal w rest) :
    fetch r = .illegal (wordInputs rest ++ afterWords r) := by
  obtain ⟨hwords, -⟩ := eq_cons_of_decode_illegal h
  have hne : leadingWords r ≠ [] := hwords ▸ List.cons_ne_nil w rest
  rw [fetch_of_words hne, h]

/-- Settles O29: a word outside the opcode map is illegal whatever follows it, and the step that takes it rejects
it. -/
theorem illegalWordIsAnsweredAndForgotten : Obligations.IllegalWordIsAnsweredAndForgotten := by
  unfold Obligations.IllegalWordIsAnsweredAndForgotten
  intro s w rest hin hw
  have hd : decode (leadingWords (.word w :: rest)) = .illegal w (leadingWords rest) :=
    decode_cons_of_none ((decodeOp_eq_none_iff w).mpr hw) (leadingWords rest)
  rw [step, hin, fetch_of_decode_illegal hd, afterWords_word, wordInputs_leading_after]
  rfl

/-! ## Rejected operands -/

/-- The response is the status word 1 alone exactly for SETIDX with an operand above 624 (R171). -/
theorem effect_response_eq_invalid_iff (i : Instr) (g : Gen) :
    (effect i g).2 = [1#32] ↔ ∃ idx, i = .setidx idx ∧ 624 < idx.toNat := by
  constructor
  · intro h
    obtain ⟨hok, -⟩ | ⟨-, hsetidx⟩ := effect_response i g
    · rw [h] at hok
      exact absurd hok (by decide)
    · exact hsetidx
  · rintro ⟨idx, rfl, hgt⟩
    rw [effect_setidx_of_gt hgt]

/-- Settles O30: the one response that a command adds is the one that `effect` names. -/
theorem invalidArgumentFromSetidxOnly : Obligations.InvalidArgumentFromSetidxOnly := by
  unfold Obligations.InvalidArgumentFromSetidxOnly
  intro i s t h
  rw [eq_of_exec_next h, List.append_right_inj, List.singleton_inj]
  exact effect_response_eq_invalid_iff i s.gen

/-! ## What a rejection leaves -/

/-- A command that answers a status other than OK writes nothing and answers the status word 1 alone (R176, R177). -/
theorem effect_of_not_ok {i : Instr} {g : Gen} (h : (effect i g).2.head? ≠ some 0#32) :
    effect i g = (g, [1#32]) := by
  obtain ⟨hok, -⟩ | ⟨-, idx, rfl, hgt⟩ := effect_response i g
  · exact absurd hok h
  · exact effect_setidx_of_gt hgt g

/-- Settles O31, by the cases of a step: a wait and a reset event add no response, and a rejected command and an illegal
word write nothing. -/
theorem errorsLeaveNoTrace : Obligations.ErrorsLeaveNoTrace := by
  unfold Obligations.ErrorsLeaveNoTrace
  intro s t status results h hout hne
  have hc := step_cases s
  rw [h] at hc
  cases hc with
  | wait => simp at hout
  | reset rest _ => simp at hout
  | command i left _ =>
    have hresponse : (effect i s.gen).2 = status :: results := by simpa using hout
    have heffect : effect i s.gen = (s.gen, [1#32]) := effect_of_not_ok (by simpa [hresponse] using hne)
    rw [heffect] at hresponse ⊢
    cases hresponse
    exact ⟨rfl, rfl, .inl rfl⟩
  | illegal w left _ =>
    have hresponse : [statusWord .illegalCommand] = status :: results := by simpa using hout
    cases hresponse
    exact ⟨rfl, rfl, .inr rfl⟩

/-! ## Steps without a next state -/

/-- Settles O36: of the five things a step can be, a packet cut by a reset event alone answers no next state. -/
theorem stepStopsOnlyAtAResetInsideAPacket : Obligations.StepStopsOnlyAtAResetInsideAPacket := by
  unfold Obligations.StepStopsOnlyAtAResetInsideAPacket
  intro s
  have hc := step_cases s
  generalize step s = outcome at hc ⊢
  cases hc with
  | wait | reset | command | illegal => exact .inl ⟨_, rfl⟩
  | cut rest hd hne ha => exact .inr ⟨rfl, hd, hne, rest, ha⟩

end Sys2Proof.Machine

/-! PROOFS. The family `70_reset_and_hazards.md`: the reset event (R190, R191), and the two ways to go round seeding,
loading words into a never-seeded block (R194) and moving the index below 624 before the twist (R197). -/

namespace Sys2Proof.Machine

open Sys2Proof.Safety

/-! ## The reset event -/

/-- Settles O2: the step that takes a reset event leaves the reset block, whose words and index are the reset
values. -/
theorem resetEventFromAnyState : Obligations.ResetEventFromAnyState := by
  unfold Obligations.ResetEventFromAnyState
  intro s rest hin
  exact ⟨_, step_reset hin, rfl, readW_reset, rfl, rfl⟩

/-! ## Words loaded into a never-seeded block -/

/-- A never-seeded block's words are lost at its next request, since the auto-seed overwrites them all (R111, R194). -/
theorem nextWord_unseeded_indep {g h : Gen} (hg : g.idx.val = 625) (hh : h.idx.val = 625) :
    nextWord g = nextWord h := by
  rw [nextWord_of_unseeded hg, nextWord_of_unseeded hh, autoseed, autoseed, seedGen_indep DEFAULT_SEED g h]

/-- The first word a never-seeded block gives is the first of the default sequence (R111). -/
theorem nextWord_unseeded_result {g : Gen} (h : g.idx.val = 625) : (nextWord g).1 = 3499211612#32 := by
  have hpending : (autoseed g).idx.val = 624 := rfl
  rw [nextWord_of_unseeded h, nextWord_of_pending hpending]
  exact first_default_word g.words

/-- Settles O27: SETST leaves the index 625, and there a generation request does not depend on the words. -/
theorem loadingWordsIsNotSeeding : Obligations.LoadingWordsIsNotSeeding := by
  unfold Obligations.LoadingWordsIsNotSeeding
  intro v s u hs hu i hi
  have hloaded : (s.gen.setWords v).idx.val = 625 := hs
  have hreset : u.gen.idx.val = 625 := by rw [hu]; rfl
  have heffect : effect i (s.gen.setWords v) = effect i u.gen :=
    effect_eq_of_nextWord_eq (nextWord_unseeded_indep hloaded hreset) hi
  refine ⟨_, (effect i u.gen).1, (effect i u.gen).2, exec_setst v s, ?afterLoad, exec_eq i u, ?firstWord⟩
  case afterLoad => rw [exec_eq, heffect, List.append_assoc, List.singleton_append]
  case firstWord =>
    rintro rfl
    rw [← nextWord_unseeded_result hreset]
    rfl

/-! ## An index below 624 straight after seeding -/

/-- A request at an index set below 624 reads that word of the vector and twists nothing (R110, R115). -/
theorem nextWord_setIdx_of_lt {n : Nat} (h : n < 624) (g : Gen) :
    nextWord (g.setIdx (idxOf n)) = (temperOf (readW g.words (wIndex n)), g.setIdx (idxOf (n + 1))) := by
  have hindex : (g.setIdx (idxOf n)).idx.val = n := idxOf_val_of_lt (by omega)
  rw [nextWord_of_lt (hindex.trans_lt h), hindex]
  rfl

/-- An index below 624 cancels the twist that SEEDS leaves pending, so the next request reads the seeded word itself
(R197). -/
theorem effectAll_seeds_setidx_next32 (seed : Word) {n : Nat} (h : n < 624) (g : Gen) :
    effectAll [.seeds seed, .setidx (BitVec.ofNat 32 n), .next32] g =
      ({ words := seedWords seed g.words, idx := idxOf (n + 1) },
        [[0#32], [0#32], [0#32, temperOf (readW (seedWords seed g.words) (wIndex n))]]) := by
  have hseeds : effect (.seeds seed) g = (seedGen seed g, [0#32]) := rfl
  have hindex : (idxOf n).val = n := idxOf_val_of_lt (by omega)
  have hword : (BitVec.ofNat 32 n).toNat = n := Nat.mod_eq_of_lt (by omega)
  have hsetidx := effect_setidx_of_le (hindex.trans hword.symm) (by omega) (seedGen seed g)
  have hnext : effect .next32 ((seedGen seed g).setIdx (idxOf n)) =
      ((seedGen seed g).setIdx (idxOf (n + 1)), [0#32, temperOf (readW (seedGen seed g).words (wIndex n))]) := by
    rw [effect, nextWord_setIdx_of_lt h]
    rfl
  simp only [effectAll, hseeds, hsetidx, hnext]
  rfl

/-- Settles O28: the witness is the vector that the loop of SEEDS leaves, which no twist touches. -/
theorem indexBelow624AfterSeedingSkipsTheTwist : Obligations.IndexBelow624AfterSeedingSkipsTheTwist := by
  unfold Obligations.IndexBelow624AfterSeedingSkipsTheTwist
  intro seed n s hn
  refine ⟨_, idxOf (n + 1), seedOf_seedWords seed s.gen.words, idxOf_val_of_lt (by omega), ?_⟩
  rw [execAll_eq, effectAll_seeds_setidx_next32 seed hn]

end Sys2Proof.Machine
